-- ==== Sys2Proof/Word.lean ====
section
/-! DEFINITION. The word types of the block (00_scope.md R12): bytes, the 32-bit payload, and the 64-bit
carrier of a floating-point number. All quantities are unsigned. -/

namespace Sys2Proof

/-- An unsigned 8-bit value, R12. -/
abbrev Byte := BitVec 8

/-- The 32-bit payload number, R28. -/
abbrev Word32 := BitVec 32

/-- The bits of a floating-point number: all 64 for binary64, the low 32 for binary32 (log entry 19). -/
abbrev FloatBits := BitVec 64

end Sys2Proof
end

