-- ==== Sys2Proof/Config.lean ====
section
/-! DEFINITION. The constants of 00_scope.md R9 and the two open parameters of R10. The constants are wired into the
block and are not state (R33). `TIMEOUT_PERIOD` is absent: no rule reads it (R11, log entry 27). -/

namespace Sys2Proof

/-- `REQ_GATE` (R10, R104): whether the request write waits for available bytes. -/
inductive ReqGate where
  | avail
  | due
  deriving DecidableEq, Repr

/-- `LEN_FMT` (R10, R145): the format of the field `length`. -/
inductive LenFmt where
  | binary64
  | binary32
  deriving DecidableEq, Repr

namespace Config

/-- The two open parameters of R10, held in the state and never written (log entry 8). -/
structure Params where
  reqGate : ReqGate
  lenFmt : LenFmt
  deriving DecidableEq, Repr

/-- The spec's defaults, R10. -/
def Params.default : Params := ⟨.avail, .binary64⟩

/-- `CYCLE_LEN`, R9: the counter wraps at 10. -/
@[simp] abbrev cycleLen : Nat := 10
/-- `DUE_PHASE`, R9. -/
@[simp] abbrev duePhase : Nat := 9
/-- `CAP`, R9: the RawBuffer's capacity. -/
@[simp] abbrev cap : Nat := 1024
/-- `MIN_LEN`, R9, R121. -/
@[simp] abbrev minLen : Nat := 9
/-- `SCAN_TAIL`, R9: the last offset examined is `rawlen - 8`. -/
@[simp] abbrev scanTail : Nat := 8
/-- `PAY_OFF`, R9. -/
@[simp] abbrev payOff : Nat := 3
/-- `PAY_LEN`, R9. -/
@[simp] abbrev payLen : Nat := 4
/-- `SCALE_DIV`, R9: 2^16. -/
@[simp] abbrev scaleDiv : Nat := 65536
/-- `MARKER`, R9. -/
def marker : List Byte := [0x01#8, 0x03#8, 0x04#8]
/-- `REQ_CMD`, R9, R71, in the order it is sent (R53). -/
def reqCmd : List Byte := [0x01#8, 0x03#8, 0x00#8, 0x00#8, 0x00#8, 0x02#8, 0xC4#8, 0x0B#8]
/-- `REQ_LEN`, R9: the length of `REQ_CMD`. -/
@[simp] abbrev reqLen : Nat := 8
/-- `LOOP_RATE` in hertz, R9: informative, no rule reads it (R220). -/
def loopRateHz : Nat := 2000
/-- `BAUD`, R9: the channel's, informative (R8). -/
def baud : Nat := 115200
/-- `READ_TIMEOUT` in milliseconds, R9: the channel's, informative (R8). -/
def readTimeoutMs : Nat := 1000

end Config

end Sys2Proof
end

