-- ==== Sys2Proof/Syntax.lean ====
section
/-! DEFINITION. The instructions: one constructor per row of opcode_table.json (30_encoding.md R84): the two wire
formats, the record, the seven tick outcomes, the three boot events and the eight micro-operations. -/

namespace Sys2Proof

/-- The 21 rows of the opcode table. Only RESP and READING have fields. -/
inductive Instr where
  /-- REQ: the request frame (R70, R71). -/
  | req
  /-- RESP: the response frame with its 32-bit payload (R73). -/
  | resp (value : Word32)
  /-- READING: the published record (R79). -/
  | reading (timestamp length : FloatBits)
  /-- IDLE: tick outcome 0 (R80, R101). -/
  | idle
  /-- SKIP_CLOSED: tick outcome 1 (R80, R176). -/
  | skipClosed
  /-- SKIP_NOAVAIL: tick outcome 2 (R80, R105). -/
  | skipNoavail
  /-- ATT_SHORT: tick outcome 3 (R80, R120). -/
  | attShort
  /-- ATT_FALLBACK: tick outcome 4 (R80, R124). -/
  | attFallback
  /-- ATT_FOUND: tick outcome 5 (R80, R123). -/
  | attFound
  /-- HALT: tick outcome 6 (R80, R181). -/
  | halt
  /-- BOOT_OK: boot event 8 (R81, R203). -/
  | bootOk
  /-- FATAL_OPEN: boot event 9 (R81, R171). -/
  | fatalOpen
  /-- FATAL_CLOSED: boot event 10 (R81, R172). -/
  | fatalClosed
  /-- WRREQ: micro-operation 0 (R82, R107). -/
  | wrreq
  /-- RDBUF: micro-operation 1 (R82, R108). -/
  | rdbuf
  /-- LENCHK: micro-operation 2 (R82, R120). -/
  | lenchk
  /-- SCAN: micro-operation 3 (R82, R122). -/
  | scan
  /-- ASM32: micro-operation 4 (R82, R140). -/
  | asm32
  /-- SCALE: micro-operation 5 (R82, R143). -/
  | scale
  /-- STAMP: micro-operation 6 (R82, R148). -/
  | stamp
  /-- PUBLISH: micro-operation 7 (R82, R160). -/
  | publish
  deriving DecidableEq, Repr

end Sys2Proof
end

