-- ==== Sys2Proof/WellFormed.lean ====
section
/-! DEFINITION. When an instruction fits its encoding. Only the record has a check: with `LEN_FMT = BINARY32` its
field `length` is 32 bits wide (30_encoding.md R79). Every other field fills its bits. -/

namespace Sys2Proof

/-- The instruction has an encoding when the record format is `f` (R79). -/
def Instr.wellFormed (f : LenFmt) : Instr → Bool
  | .reading _ l =>
    match f with
    | .binary64 => true
    | .binary32 => decide (l.toNat < 2 ^ 32)
  | .req | .resp _ => true
  | .idle | .skipClosed | .skipNoavail | .attShort | .attFallback | .attFound | .halt => true
  | .bootOk | .fatalOpen | .fatalClosed => true
  | .wrreq | .rdbuf | .lenchk | .scan | .asm32 | .scale | .stamp | .publish => true

end Sys2Proof
end

