-- ==== Sys2Proof/Decode.lean ====
section
/-! DEFINITION. The formats of 30_encoding.md, the decoder from bytes to an instruction or a named rejection, and the
encoder. A word of format REQ, RESP or READING is its bytes with byte 0 the most significant (R70, R73, R79). A word of
format TCW, BOOT or UOP is one byte whose bits above the word's width are 0 (log entry 26). -/

namespace Sys2Proof

/-- The word formats of R84. The record's format depends on `LEN_FMT` (R79). -/
inductive Format where
  | req
  | resp
  | reading (f : LenFmt)
  | tcw
  | boot
  | uop
  deriving DecidableEq, Repr

/-- A word: its format and its bytes, byte 0 first. -/
structure FetchWord where
  fmt : Format
  bytes : List Byte
  deriving DecidableEq, Repr

/-- Why a word is no instruction. -/
inductive DecodeError where
  /-- The number of bytes is not the format's. -/
  | badLength
  /-- A bit above the word's width is set. -/
  | reservedBits
  /-- A 64-bit word other than the one request (R71). -/
  | notRequest
  /-- A 56-bit word that does not begin with the marker: noise (R77). -/
  | notMarker
  /-- No row of the format's table matches; the tables cover every word, so no word is rejected for this. -/
  | noRow
  deriving DecidableEq, Repr

/-- The width of `length` in a record, R79. -/
def LenFmt.width : LenFmt → Nat
  | .binary64 => 64
  | .binary32 => 32

/-- The word's width in bits, opcode_table.json. -/
def Format.bits : Format → Nat
  | .req => 8 * Config.reqLen
  | .resp => 8 * (Config.marker.length + Config.payLen)
  | .reading f => 64 + f.width
  | .tcw => 6
  | .boot => 2
  | .uop => 3

/-- The word's length in whole bytes. -/
def Format.byteLen : Format → Nat
  | .req => Config.reqLen
  | .resp => Config.marker.length + Config.payLen
  | .reading .binary64 => 16
  | .reading .binary32 => 12
  | .tcw | .boot | .uop => 1

/-- The number a byte list spells, first byte most significant (R52). -/
def beNat (bs : List Byte) : Nat :=
  bs.foldl (fun acc b => acc * 256 + b.toNat) 0

/-- The `n` low bytes of a number, most significant first. -/
def beBytes : Nat → Nat → List Byte
  | 0, _ => []
  | n + 1, v => BitVec.ofNat 8 (v / 256 ^ n) :: beBytes n v

/-- One row of an encoding table: the word matches when its masked bits equal `pattern`. -/
structure Row where
  mask : Nat
  pattern : Nat
  instr : Instr
  deriving DecidableEq, Repr

/-- The row matches the word. -/
def Row.hits (r : Row) (w : Nat) : Bool := w &&& r.mask == r.pattern

/-- The first row that matches. -/
def findRow (rows : List Row) (w : Nat) : Option Instr :=
  (rows.find? (fun r => r.hits w)).map Row.instr

/-- The table of R80, in the order of its numbers. -/
def tcwRows : List Row :=
  [⟨0x38, 0x10, .idle⟩, ⟨0x30, 0x00, .skipClosed⟩, ⟨0x3C, 0x18, .skipNoavail⟩, ⟨0x3E, 0x1C, .attShort⟩,
    ⟨0x3F, 0x1E, .attFallback⟩, ⟨0x3F, 0x1F, .attFound⟩, ⟨0x20, 0x20, .halt⟩]

/-- The three boot events of R81. -/
def bootRows : List Row :=
  [⟨0x3, 0x3, .bootOk⟩, ⟨0x2, 0x0, .fatalOpen⟩, ⟨0x3, 0x2, .fatalClosed⟩]

/-- The numbering of R82. -/
def uopRows : List Row :=
  [⟨0x7, 0, .wrreq⟩, ⟨0x7, 1, .rdbuf⟩, ⟨0x7, 2, .lenchk⟩, ⟨0x7, 3, .scan⟩,
    ⟨0x7, 4, .asm32⟩, ⟨0x7, 5, .scale⟩, ⟨0x7, 6, .stamp⟩, ⟨0x7, 7, .publish⟩]

/-- The one request word, R71: the bytes of `REQ_CMD` with the first most significant. -/
def reqWord : Nat := beNat Config.reqCmd

/-- The three marker bytes as the field [55:32] of a response word, R73. -/
def markerField : Nat := beNat Config.marker

/-- A table's answer, or a rejection. -/
def rowOr (rows : List Row) (w : Nat) : Except DecodeError Instr :=
  match findRow rows w with
  | some i => .ok i
  | none => .error .noRow

/-- The instruction a word stands for as a number below `2 ^ fmt.bits`. -/
def decodeNumber (fmt : Format) (v : Nat) : Except DecodeError Instr :=
  match fmt with
  | .req => if v = reqWord then .ok .req else .error .notRequest
  | .resp => if v / 2 ^ (8 * Config.payLen) = markerField then .ok (.resp (BitVec.ofNat 32 v)) else .error .notMarker
  | .reading f => .ok (.reading (BitVec.ofNat 64 (v / 2 ^ f.width)) (BitVec.ofNat 64 (v % 2 ^ f.width)))
  | .tcw => rowOr tcwRows v
  | .boot => rowOr bootRows v
  | .uop => rowOr uopRows v

/-- The decoder, total on every word. -/
def decode (w : FetchWord) : Except DecodeError Instr :=
  if w.bytes.length ≠ w.fmt.byteLen then .error .badLength
  else if beNat w.bytes < 2 ^ w.fmt.bits then decodeNumber w.fmt (beNat w.bytes)
  else .error .reservedBits

/-- The word's number for an instruction, a bit that is not evaluated being 0 (R80). -/
def encodeNumber (f : LenFmt) : Instr → Nat
  | .req => reqWord
  | .resp v => markerField * 2 ^ (8 * Config.payLen) + v.toNat
  | .reading t l => t.toNat * 2 ^ f.width + l.toNat
  | .idle => 0x10
  | .skipClosed => 0x00
  | .skipNoavail => 0x18
  | .attShort => 0x1C
  | .attFallback => 0x1E
  | .attFound => 0x1F
  | .halt => 0x20
  | .bootOk => 0x3
  | .fatalOpen => 0x0
  | .fatalClosed => 0x2
  | .wrreq => 0
  | .rdbuf => 1
  | .lenchk => 2
  | .scan => 3
  | .asm32 => 4
  | .scale => 5
  | .stamp => 6
  | .publish => 7

/-- The format of an instruction's word. -/
def Instr.format (f : LenFmt) : Instr → Format
  | .req => .req
  | .resp _ => .resp
  | .reading _ _ => .reading f
  | .idle | .skipClosed | .skipNoavail | .attShort | .attFallback | .attFound | .halt => .tcw
  | .bootOk | .fatalOpen | .fatalClosed => .boot
  | .wrreq | .rdbuf | .lenchk | .scan | .asm32 | .scale | .stamp | .publish => .uop

/-- The word of a well-formed instruction. -/
def encode (f : LenFmt) (i : Instr) : FetchWord :=
  ⟨i.format f, beBytes (i.format f).byteLen (encodeNumber f i)⟩

/-- The format of a word of eight bits, whose row the table's number alone does not give: TCW, BOOT and UOP share them.
A word that equals a boot row's match is a boot word, another below 8 a micro-operation, any other a tick condition
word (DESIGN CHOICE, log entry 4). -/
def formatOfByte (w : Nat) : Format :=
  if bootRows.any (fun r => r.pattern == w) then .boot
  else if w < 2 ^ Format.uop.bits then .uop
  else .tcw

/-- A number as a word of a format. -/
def wordOf (fmt : Format) (w : Nat) : FetchWord := ⟨fmt, beBytes fmt.byteLen w⟩

/-- The word of the given width as opcode_table.json numbers it. The widths 2, 3 and 6 name their format. -/
def tableWord (nbits w : Nat) : Option FetchWord :=
  if w < 2 ^ nbits then
    match nbits with
    | 64 => some (wordOf .req w)
    | 56 => some (wordOf .resp w)
    | 128 => some (wordOf (.reading .binary64) w)
    | 96 => some (wordOf (.reading .binary32) w)
    | 6 => some (wordOf .tcw w)
    | 2 => some (wordOf .boot w)
    | 3 => some (wordOf .uop w)
    | 8 => some (wordOf (formatOfByte w) w)
    | _ => none
  else none

/-- The instruction the decoder reads from a word of the opcode table. -/
def decodeTableWord (nbits w : Nat) : Option Instr :=
  match tableWord nbits w with
  | none => none
  | some fw =>
    match decode fw with
    | .ok i => some i
    | .error _ => none

end Sys2Proof
end

