-- ==== Sys2Proof/Machine/State.lean ====
section
/-! DEFINITION. The state: the ten elements of 10_state.md R20, the two open parameters, the record of outputs (R41),
the environment's state (R35) and the model's own latches. Plain data. -/

namespace Sys2Proof.Machine

/-- The four phases of life, R21. -/
inductive Mode where
  | boot
  | run
  | fatal
  | halted
  deriving DecidableEq, Repr

/-- The RawBuffer as address and byte pairs in canonical form, R25. -/
abbrev Memory := List Host.Cell

/-- A Reading: seconds since the epoch, and the physical value, R29. -/
structure Reading where
  timestamp : FloatBits
  length : FloatBits
  deriving DecidableEq, Repr

/-- The labels of the outcomes of a tick (R80) and of the boot events (R81). -/
inductive Label where
  | idle
  | skipClosed
  | skipNoavail
  | attShort
  | attFallback
  | attFound
  | halt
  | bootOk
  | fatalOpen
  | fatalClosed
  deriving DecidableEq, Repr

/-- One tick's inputs, R41. `rx` is what the channel holds ready for the tick's `ChRead` (log entry 5). -/
structure TickIn where
  halt : Bool
  chOpen : Bool
  rxAvail : Nat
  rx : List Byte
  now : FloatBits
  deriving DecidableEq, Repr

/-- The two answers the boot sequence gets, R37 and R203. -/
structure BootIn where
  openOk : Bool
  chOpen : Bool
  deriving DecidableEq, Repr

/-- What the environment can do to the block: reset (R36), the boot sequence's answers (R203), a tick (R41), bytes
arriving in the channel's receive queue (R35(a)), and a reset that lands in a tick after `done` of its operations (R200). -/
inductive Input where
  | rst
  | rstInTick (t : TickIn) (done : Nat)
  | boot (b : BootIn)
  | tick (t : TickIn)
  | arrive (bytes : List Byte)
  deriving DecidableEq, Repr

/-- The outputs of one step, R41. -/
structure TickOut where
  outcome : Option Label
  tx : Option (List Byte)
  rdReq : Option Nat
  pub : Option Reading
  closedEvt : Bool
  deriving DecidableEq, Repr

/-- No event, R42. -/
def TickOut.none : TickOut := ⟨Option.none, Option.none, Option.none, Option.none, false⟩

/-- The environment: the events to come, the channel's receive queue, the bytes handed to its transmit side and the
records the sink received (R35, R50). -/
structure Env where
  inputs : List Input
  rxq : List Byte
  sent : List Byte
  sink : List Reading
  deriving DecidableEq, Repr

/-- The machine. `mode` to `syncFound` are the ten elements of R20, the Reading counting for two. `len`, `tin`, `bin` and
`seq` are the model's own (log entries 3 and 7). -/
structure State where
  mode : Mode
  cnt : Fin Config.cycleLen
  rawbuf : Memory
  rawlen : Nat
  idx : Nat
  value : Word32
  reading : Reading
  decOk : Bool
  syncFound : Bool
  cfg : Config.Params
  tin : TickIn
  bin : BootIn
  len : FloatBits
  out : TickOut
  env : Env
  seq : Option FetchWord
  deriving DecidableEq, Repr

/-- Why the machine stops. None is raised by a step that takes an input of the environment. -/
inductive Fault where
  /-- Raised by a tick outcome or a boot event in a state whose condition word or mode does not select it (R80, R81,
  R100). Safe: the hardware does nothing of the kind. -/
  | notSelected
  /-- Raised by SCAN run with `rawlen` below 9, where R122's precondition fails. Safe. -/
  | shortBuffer
  /-- Raised by SCAN or ASM32 for a `MemRead` that reaches `rawlen` or the capacity, where R13 and R55 define none. Safe. -/
  | outOfBounds
  deriving DecidableEq, Repr

/-- Why an instruction has no meaning. -/
inductive Refusal where
  /-- Raised by an arm of `exec` whose instruction is not modelled yet. Safe. -/
  | notModelled (mnemonic : String)
  /-- Raised by `step` for a word in `seq` that decodes to no instruction; no input of the environment puts one there.
  Safe. -/
  | undecodable (e : DecodeError)
  deriving DecidableEq, Repr

/-- The machine after reset, R42. The scratch elements, which R42 leaves unspecified, are 0 (log entry 10). The environment
starts with nothing: no inputs (log entry 2), nothing sent or published (log entry 24), and the channel's receive queue
empty, where the spec gives it no first content (DESIGN CHOICE, log entry 32). -/
def State.reset : State where
  mode := .boot
  cnt := ⟨0, by decide⟩
  rawbuf := []
  rawlen := 0
  idx := 0
  value := 0#32
  reading := ⟨0#64, 0#64⟩
  decOk := false
  syncFound := false
  cfg := Config.Params.default
  tin := ⟨false, false, 0, [], 0#64⟩
  bin := ⟨false, false⟩
  len := 0#64
  out := TickOut.none
  env := ⟨[], [], [], []⟩
  seq := none

end Sys2Proof.Machine
end

