-- ==== Sys2Proof/Machine/Ops.lean ====
section
/-! DEFINITION. The named operations over the RawBuffer, the channel, the sink and the mode, which the meanings share:
the primitives of 00_scope.md R13. -/

namespace Sys2Proof.Machine

/-! ### The RawBuffer -/

/-- What a byte of the RawBuffer that is not listed reads as (DESIGN CHOICE, log entry 10). -/
def Memory.unlisted : Byte := 0#8

/-- Read one byte. -/
def Memory.get : Memory → Nat → Byte
  | [], _ => Memory.unlisted
  | (a, b) :: rest, k => if a = k then b else Memory.get rest k

/-- Write one byte, keeping the canonical form. -/
def Memory.put : Memory → Nat → Byte → Memory
  | [], k, v => if v = Memory.unlisted then [] else [(k, v)]
  | (a, b) :: rest, k, v =>
    if k < a then if v = Memory.unlisted then (a, b) :: rest else (k, v) :: (a, b) :: rest
    else if k = a then if v = Memory.unlisted then rest else (k, v) :: rest
    else (a, b) :: Memory.put rest k v

/-- `MemWrite(k, n, v)` of R13 for the list `v`. -/
def Memory.write : Memory → Nat → List Byte → Memory
  | m, _, [] => m
  | m, k, v :: vs => Memory.write (Memory.put m k v) (k + 1) vs

/-- The canonical form: addresses strictly rising, no entry that equals what an unlisted address reads as. -/
abbrev Memory.wf (m : Memory) : Prop :=
  m.Pairwise (fun c d => c.1 < d.1) ∧ ∀ c ∈ m, c.2 ≠ Memory.unlisted

/-- `MemRead(k, n)` of R13: defined only inside the bytes the last RDBUF stored, and inside the buffer. -/
def memRead (s : State) (k n : Nat) : Option (List Byte) :=
  if k + n ≤ s.rawlen ∧ k + n ≤ Config.cap then
    some ((List.range n).map (fun d => Memory.get s.rawbuf (k + d)))
  else none

/-! ### The collaborators -/

/-- `ChWrite(bytes)`, R58: the bytes are handed over in list order, and nothing comes back. -/
def chWrite (bytes : List Byte) (s : State) : State :=
  { s with out := { s.out with tx := some bytes }, env := { s.env with sent := s.env.sent ++ bytes } }

/-- The answer to `ChRead(n)`, R59: at most `n` bytes of what the channel holds ready (log entry 5). -/
def chAnswer (n : Nat) (s : State) : List Byte := s.tin.rx.take n

/-- `ChRead(n)`, R59: the request goes out, and the bytes answered leave the channel's queue (log entry 6). -/
def chRead (n : Nat) (s : State) : State :=
  { s with out := { s.out with rdReq := some n }, env := { s.env with rxq := s.env.rxq.drop (chAnswer n s).length } }

/-- `Now()`, R38: the sample the environment supplies for this tick. -/
def nowSample (s : State) : FloatBits := s.tin.now

/-- `Publish(r)`, R160: one record handed to the sink. -/
def publish (r : Reading) (s : State) : State :=
  { s with out := { s.out with pub := some r }, env := { s.env with sink := s.env.sink ++ [r] } }

/-- The bytes that arrive in the channel's receive queue, R35(a). -/
def arriveBytes (bytes : List Byte) (s : State) : State :=
  { s with env := { s.env with rxq := s.env.rxq ++ bytes } }

/-! ### Acquisition -/

/-- The request write, R107: the eight bytes of `REQ_CMD`. -/
def sendRequest (s : State) : State := chWrite Config.reqCmd s

/-- The size of the read, R108. -/
def readSize (s : State) : Nat := min s.tin.rxAvail Config.cap

/-- The bytes the read of this tick returns. -/
def readBytes (s : State) : List Byte := chAnswer (readSize s) s

/-- RDBUF's effect, R108: the bytes are stored from index 0 and counted. Run alone with `rx_avail` 0, where R59 defines
no read, it asks for 0 bytes and stores none (DESIGN CHOICE, log entry 30). -/
def readBuffer (s : State) : State :=
  { chRead (readSize s) s with
    rawbuf := Memory.write s.rawbuf 0 (readBytes s), rawlen := (readBytes s).length }

/-- The pulse `closed_evt`, R40. -/
def pulseClosed (s : State) : State := { s with out := { s.out with closedEvt := true } }

/-- What a due tick of an open channel with no bytes does before its end, R104: with `REQ_GATE = DUE` the request. -/
def noavailRequest (s : State) : State := if s.cfg.reqGate = .due then sendRequest s else s

/-! ### The counter, the outcome, the mode -/

/-- The advance of the counter, R22. -/
def nextCnt (c : Fin Config.cycleLen) : Fin Config.cycleLen :=
  if h : c.val + 1 = Config.cycleLen then ⟨0, by decide⟩ else ⟨c.val + 1, by omega⟩

/-- The end of a tick other than HALT, R100: the counter advances and the outcome is reported. -/
def endTick (l : Label) (s : State) : State :=
  { s with cnt := nextCnt s.cnt, out := { s.out with outcome := some l } }

/-- Raising an event that changes the mode: the boot events (R171, R172, R203) and HALT (R181). Nothing is saved, there is
no vector, and the mode is all that changes (R183). There is no return (R184): only `applyReset` leaves FATAL and HALTED. -/
def raiseEvent (l : Label) (m : Mode) (s : State) : State :=
  { s with mode := m, out := { s.out with outcome := some l } }

/-- `rst`, R200: every element of the block takes its reset value. What is outside the block is not touched (R201), and
the fixed parameters stay. -/
def applyReset (s : State) : State :=
  { State.reset with cfg := s.cfg, env := s.env }

/-- `rst` that lands in a tick, R200: the block takes its reset values, and the events the tick has issued are out. -/
def resetInTick (s : State) : State := { applyReset s with out := s.out }

/-- One micro-operation after another, R106: a stop ends the sequence. -/
def andThen (o : Host.Outcome State Fault Refusal) (f : State → Host.Outcome State Fault Refusal) :
    Host.Outcome State Fault Refusal :=
  match o with
  | .next s => f s
  | .fault r => .fault r
  | .refused r => .refused r

end Sys2Proof.Machine
end

