-- ==== Sys2Proof/Machine/Operands.lean ====
section
/-! DEFINITION. What the micro-operations compute: the offset SCAN selects (41_frame_sync.md R122), the number ASM32
assembles (42_fixed_point_scaler.md R141) and the floating-point number SCALE makes of it (R145). -/

namespace Sys2Proof.Machine

/-- The scan's loop, R122: `fuel` bounds the comparisons left, `j` is the candidate offset, `last` the last one examined.
The answer is the offset and whether the marker is there, or nothing for a read out of bounds. -/
def scanFrom (s : State) (last : Nat) : Nat → Nat → Option (Nat × Bool)
  | 0, _ => none
  | fuel + 1, j =>
    match memRead s j Config.marker.length with
    | none => none
    | some bs =>
      if bs = Config.marker then some (j, true)
      else if j = last then some (last, false)
      else scanFrom s last fuel (j + 1)

/-- The scan from offset 0 to `rawlen - 8`, at most `rawlen - 7` comparisons (R122, R126). -/
def scanResult (s : State) : Option (Nat × Bool) :=
  scanFrom s (s.rawlen - Config.scanTail) (s.rawlen - Config.scanTail + 1) 0

/-- `u32_be`, R141. -/
def u32be (b3 b2 b1 b0 : Byte) : Word32 :=
  BitVec.ofNat 32 (b3.toNat * 2 ^ 24 + b2.toNat * 2 ^ 16 + b1.toNat * 2 ^ 8 + b0.toNat)

/-- The payload at the selected offset, R140. -/
def payload (s : State) : Option Word32 :=
  match memRead s (s.idx + Config.payOff) Config.payLen with
  | some [b3, b2, b1, b0] => some (u32be b3 b2 b1 b0)
  | _ => none

/-- A floating-point word with sign 0, exponent field `e` and fraction `f` of `frac` bits, R144. -/
def floatWord (frac e f : Nat) : FloatBits := BitVec.ofNat 64 (e * 2 ^ frac + f)

/-- The exponent bias of a format, R144. -/
def expBias : LenFmt → Nat
  | .binary64 => 1023
  | .binary32 => 127

/-- The exponent field of a number whose highest set bit is `e`, divided by `SCALE_DIV`: the division subtracts the
divisor's exponent (R145, R146). -/
def expField (f : LenFmt) (e : Nat) : Nat := expBias f - Config.scaleDiv.log2 + e

/-- R145's 24-bit significand for a value whose highest set bit `e` is above 23: nearest, ties to even. -/
def roundedSignificand (n e : Nat) : Nat :=
  let m := n / 2 ^ (e - 23)
  let r := n % 2 ^ (e - 23)
  let h := 2 ^ (e - 23 - 1)
  if h < r ∨ (r = h ∧ m % 2 = 1) then m + 1 else m

/-- `q16_to_float`, R145: the number `v / 65536` in the format `f`. -/
def q16ToFloat (f : LenFmt) (v : Word32) : FloatBits :=
  let n := v.toNat
  let e := n.log2
  if n = 0 then 0#64
  else
    match f with
    | .binary64 => floatWord 52 (expField .binary64 e) ((n - 2 ^ e) * 2 ^ (52 - e))
    | .binary32 =>
      if e ≤ 23 then floatWord 23 (expField .binary32 e) ((n - 2 ^ e) * 2 ^ (23 - e))
      else if roundedSignificand n e = 2 ^ 24 then floatWord 23 (expField .binary32 (e + 1)) 0
      else floatWord 23 (expField .binary32 e) (roundedSignificand n e - 2 ^ 23)

end Sys2Proof.Machine
end

