-- ==== Sys2Proof/Machine/Flags.lean ====
section
/-! DEFINITION. The conditions of a tick and of the boot, the words they form (30_encoding.md R80, R81), the flags'
updates (10_state.md R31, R32) and the level outputs (R40). -/

namespace Sys2Proof.Machine

/-- The due test, R102, on the counter before its advance. -/
def due (s : State) : Bool := s.cnt.val % Config.cycleLen == Config.duePhase

/-- The available-bytes gate, R103. -/
def avail (s : State) : Bool := s.tin.rxAvail != 0

/-- The tick makes an attempt, R100. -/
def attempts (s : State) : Bool := !s.tin.halt && s.tin.chOpen && due s && avail s

/-- The length test, R120. -/
def longEnough (s : State) : Bool := decide (Config.minLen ≤ s.rawlen)

/-- Condition `lenok`: the length test after the tick's RDBUF; 0 when it is not evaluated (R80, log entry 15). -/
def lenok (s : State) : Bool := attempts s && longEnough (readBuffer s)

/-- Condition `found`: the scan's result; 0 when it is not evaluated (R80, log entry 15). -/
def found (s : State) : Bool :=
  lenok s &&
    match scanResult (readBuffer s) with
    | some (_, f) => f
    | none => false

/-- The tick condition word, R80: `halt ++ open ++ due ++ avail ++ lenok ++ found`. -/
def tcw (s : State) : Nat :=
  s.tin.halt.toNat * 32 + s.tin.chOpen.toNat * 16 + (due s).toNat * 8 + (avail s).toNat * 4 + (lenok s).toNat * 2 +
    (found s).toNat

/-- The tick condition word as a word to decode. -/
def tcwWord (s : State) : FetchWord := ⟨.tcw, beBytes 1 (tcw s)⟩

/-- The boot word `open_ok ++ ch_open`, R81. -/
def bootWord (s : State) : FetchWord := ⟨.boot, beBytes 1 (s.bin.openOk.toNat * 2 + s.bin.chOpen.toNat)⟩

/-- The word decodes to the instruction. -/
def wordIs (w : FetchWord) (i : Instr) : Bool :=
  match decode w with
  | .ok j => j == i
  | .error _ => false

/-- A tick outcome runs where the mode is RUN and the tick condition word selects it (R80, R100; log entry 16). -/
def whenTick (i : Instr) (s : State) (f : State → Host.Outcome State Fault Refusal) :
    Host.Outcome State Fault Refusal :=
  if s.mode = .run ∧ wordIs (tcwWord s) i = true then f s else .fault .notSelected

/-- A boot event runs where the mode is BOOT and the boot word selects it (R81, R203; log entry 16). -/
def whenBoot (i : Instr) (s : State) (f : State → Host.Outcome State Fault Refusal) :
    Host.Outcome State Fault Refusal :=
  if s.mode = .boot ∧ wordIs (bootWord s) i = true then f s else .fault .notSelected

/-- The write of `dec_ok` by LENCHK: to 0 on a short buffer, else kept (R31, R120). -/
def decOkAfterLenchk (s : State) : Bool := if longEnough s then s.decOk else false

/-- The level output `fatal`, R40. -/
def fatalOut (s : State) : Bool := s.mode == .fatal

/-- The level output `halted`, R40. -/
def haltedOut (s : State) : Bool := s.mode == .halted

/-- The number of an outcome or boot event, R80 and R81. -/
def labelNumber : Label → Nat
  | .idle => 0
  | .skipClosed => 1
  | .skipNoavail => 2
  | .attShort => 3
  | .attFallback => 4
  | .attFound => 5
  | .halt => 6
  | .bootOk => 8
  | .fatalOpen => 9
  | .fatalClosed => 10

end Sys2Proof.Machine
end

