-- ==== Sys2Proof/Machine/Boot.lean ====
section
/-! DEFINITION. The meanings of the three boot events (30_encoding.md R81, 70_reset_and_hazards.md R203). -/

namespace Sys2Proof.Machine

/-- BOOT_OK, R203. -/
def execBootOk (s : State) : Host.Outcome State Fault Refusal :=
  whenBoot .bootOk s fun s => .next (raiseEvent .bootOk .run s)

/-- FATAL_OPEN, R171. -/
def execFatalOpen (s : State) : Host.Outcome State Fault Refusal :=
  whenBoot .fatalOpen s fun s => .next (raiseEvent .fatalOpen .fatal s)

/-- FATAL_CLOSED, R172. -/
def execFatalClosed (s : State) : Host.Outcome State Fault Refusal :=
  whenBoot .fatalClosed s fun s => .next (raiseEvent .fatalClosed .fatal s)

end Sys2Proof.Machine
end

