-- ==== Sys2Proof/Machine/Formats.lean ====
section
/-! DEFINITION. The meanings of the three data formats (30_encoding.md R71, R73, R79), each the one thing the block does
with a word of it (DESIGN CHOICE, log entry 18), in every mode (DESIGN CHOICE, log entry 33). -/

namespace Sys2Proof.Machine

/-- REQ, R71: the frame's eight bytes are handed to the channel. -/
def execReq (s : State) : Host.Outcome State Fault Refusal :=
  .next (chWrite (encode s.cfg.lenFmt .req).bytes s)

/-- RESP, R73 and R75: the frame is recognised and its payload is the value. -/
def execResp (v : Word32) (s : State) : Host.Outcome State Fault Refusal :=
  .next { s with value := v, syncFound := true }

/-- READING, R79: the record is handed to the sink. It is read by its own word's width, also where that is not the width of
the machine's `LEN_FMT` (DESIGN CHOICE, log entry 31). -/
def execReading (t l : FloatBits) (s : State) : Host.Outcome State Fault Refusal :=
  .next (publish ⟨t, l⟩ s)

end Sys2Proof.Machine
end

