-- ==== Sys2Proof/Machine/MicroOps.lean ====
section
/-! DEFINITION. The meanings of the eight micro-operations (30_encoding.md R82). None tests the mode or the channel: in a
tick the outcome has done so (R100, R106), and a word run alone has its effect in every mode (DESIGN CHOICE, log entry
33). Nor does one test that the operations before it in an attempt have run (DESIGN CHOICE, log entry 34). -/

namespace Sys2Proof.Machine

/-- WRREQ, R107. Run alone it sends the request in any mode and with the channel sampled closed, where R107 never issues it
(DESIGN CHOICE, log entry 33). -/
def execWrreq (s : State) : Host.Outcome State Fault Refusal := .next (sendRequest s)

/-- RDBUF, R108. -/
def execRdbuf (s : State) : Host.Outcome State Fault Refusal := .next (readBuffer s)

/-- LENCHK, R120. What runs next is the attempt's business (R106); run alone it skips nothing (log entry 34). -/
def execLenchk (s : State) : Host.Outcome State Fault Refusal := .next { s with decOk := decOkAfterLenchk s }

/-- SCAN, R122: its precondition is `rawlen >= 9`. -/
def execScan (s : State) : Host.Outcome State Fault Refusal :=
  if longEnough s then
    match scanResult s with
    | some (i, f) => .next { s with idx := i, syncFound := f }
    | none => .fault .outOfBounds
  else .fault .shortBuffer

/-- ASM32, R140. -/
def execAsm32 (s : State) : Host.Outcome State Fault Refusal :=
  match payload s with
  | some v => .next { s with value := v }
  | none => .fault .outOfBounds

/-- SCALE, R143: the result goes to STAMP through the latch `len`. -/
def execScale (s : State) : Host.Outcome State Fault Refusal :=
  .next { s with len := q16ToFloat s.cfg.lenFmt s.value }

/-- STAMP, R148: both fields of the Reading are written together. Run alone it does so whatever `rawlen` is, also below 9, where
R120 and R130 let no attempt reach it (DESIGN CHOICE, log entry 34). -/
def execStamp (s : State) : Host.Outcome State Fault Refusal :=
  .next { s with reading := ⟨nowSample s, s.len⟩, decOk := true }

/-- PUBLISH, R160. -/
def execPublish (s : State) : Host.Outcome State Fault Refusal := .next (publish s.reading s)

end Sys2Proof.Machine
end

