-- ==== Sys2Proof/Machine/Outcomes.lean ====
section
/-! DEFINITION. The meanings of the seven tick outcomes (30_encoding.md R80): the branches of the tick, 40_poll_scheduler.md
R100, and the attempt, R106. -/

namespace Sys2Proof.Machine

/-- The second half of an attempt whose length check passed, R106: SCAN, ASM32, SCALE, STAMP. -/
def decodeChain (s : State) : Host.Outcome State Fault Refusal :=
  andThen (andThen (andThen (execScan s) execAsm32) execScale) execStamp

/-- The end of a decoded attempt, R106. -/
def endDecoded (s : State) : Host.Outcome State Fault Refusal :=
  .next (endTick (if s.syncFound then .attFound else .attFallback) s)

/-- The attempt, R106, and the tick's end. WRREQ runs in it under both settings of `REQ_GATE` (R104, log entry 9). -/
def attempt (s : State) : Host.Outcome State Fault Refusal :=
  andThen (andThen (andThen (execWrreq s) execRdbuf) execLenchk) fun s3 =>
    if longEnough s3 then andThen (andThen (decodeChain s3) execPublish) endDecoded
    else andThen (execPublish s3) fun s4 => .next (endTick .attShort s4)

/-- IDLE, R101. -/
def execIdle (s : State) : Host.Outcome State Fault Refusal :=
  whenTick .idle s fun s => .next (endTick .idle s)

/-- SKIP_CLOSED, R176. -/
def execSkipClosed (s : State) : Host.Outcome State Fault Refusal :=
  whenTick .skipClosed s fun s => .next (endTick .skipClosed (pulseClosed s))

/-- SKIP_NOAVAIL, R104 and R105: with `REQ_GATE = DUE` the request is written. -/
def execSkipNoavail (s : State) : Host.Outcome State Fault Refusal :=
  whenTick .skipNoavail s fun s =>
    .next (endTick .skipNoavail (noavailRequest s))

/-- ATT_SHORT, R106 and R120. -/
def execAttShort (s : State) : Host.Outcome State Fault Refusal := whenTick .attShort s attempt

/-- ATT_FALLBACK, R106 and R124. -/
def execAttFallback (s : State) : Host.Outcome State Fault Refusal := whenTick .attFallback s attempt

/-- ATT_FOUND, R106 and R123. -/
def execAttFound (s : State) : Host.Outcome State Fault Refusal := whenTick .attFound s attempt

/-- HALT, R181: the counter does not advance. -/
def execHalt (s : State) : Host.Outcome State Fault Refusal :=
  whenTick .halt s fun s => .next (raiseEvent .halt .halted s)

end Sys2Proof.Machine
end

