-- ==== Sys2Proof/Machine/Dispatch.lean ====
section
/-! DEFINITION. One arm per instruction, each one direct call of its meaning. -/

namespace Sys2Proof.Machine

def exec (i : Instr) (s : State) : Host.Outcome State Fault Refusal :=
  match i with
  | .req => Sys2Proof.Machine.execReq s
  | .resp v => Sys2Proof.Machine.execResp v s
  | .reading t l => Sys2Proof.Machine.execReading t l s
  | .idle => Sys2Proof.Machine.execIdle s
  | .skipClosed => Sys2Proof.Machine.execSkipClosed s
  | .skipNoavail => Sys2Proof.Machine.execSkipNoavail s
  | .attShort => Sys2Proof.Machine.execAttShort s
  | .attFallback => Sys2Proof.Machine.execAttFallback s
  | .attFound => Sys2Proof.Machine.execAttFound s
  | .halt => Sys2Proof.Machine.execHalt s
  | .bootOk => Sys2Proof.Machine.execBootOk s
  | .fatalOpen => Sys2Proof.Machine.execFatalOpen s
  | .fatalClosed => Sys2Proof.Machine.execFatalClosed s
  | .wrreq => Sys2Proof.Machine.execWrreq s
  | .rdbuf => Sys2Proof.Machine.execRdbuf s
  | .lenchk => Sys2Proof.Machine.execLenchk s
  | .scan => Sys2Proof.Machine.execScan s
  | .asm32 => Sys2Proof.Machine.execAsm32 s
  | .scale => Sys2Proof.Machine.execScale s
  | .stamp => Sys2Proof.Machine.execStamp s
  | .publish => Sys2Proof.Machine.execPublish s

end Sys2Proof.Machine
end

