-- ==== Sys2Proof/Machine/Fetch.lean ====
section
/-! DEFINITION. How a step comes by its instruction. The block has no fetch (10_state.md R24): a tick's conditions, or the
boot's two inputs, form a word and the word selects what happens (30_encoding.md R80, R81). Also the placing of a word of
the opcode table where the next step takes it (log entries 2 and 3). -/

namespace Sys2Proof.Machine

/-- Run the instruction a word stands for. -/
def runWord (w : FetchWord) (s : State) : Host.Outcome State Fault Refusal :=
  match decode w with
  | .ok i => exec i s
  | .error e => .refused (.undecodable e)

/-- The boot sequence with its two answers sampled, R203. Outside BOOT they are not consulted (R37, log entry 13). -/
def takeBoot (b : BootIn) (s : State) : Host.Outcome State Fault Refusal :=
  if s.mode = .boot then runWord (bootWord { s with bin := b }) { s with bin := b } else .next s

/-- A tick with its record sampled, R100. Outside RUN it is ignored (R173, R181, R203; log entry 12). -/
def takeTick (t : TickIn) (s : State) : Host.Outcome State Fault Refusal :=
  if s.mode = .run then runWord (tcwWord { s with tin := t }) { s with tin := t } else .next s

/-- What a tick of the given outcome does before its end, one operation after another (R63, R100, R106). HALT and IDLE do
nothing before it. -/
def tickStages (i : Instr) : List (State → Host.Outcome State Fault Refusal) :=
  match i with
  | .skipClosed => [fun s => .next (pulseClosed s)]
  | .skipNoavail => [fun s => .next (noavailRequest s)]
  | .attShort => [execWrreq, execRdbuf, execLenchk, execPublish]
  | .attFallback | .attFound =>
    [execWrreq, execRdbuf, execLenchk, execScan, execAsm32, execScale, execStamp, execPublish]
  | .idle | .halt | .bootOk | .fatalOpen | .fatalClosed | .req | .resp _ | .reading _ _ => []
  | .wrreq | .rdbuf | .lenchk | .scan | .asm32 | .scale | .stamp | .publish => []

/-- Operations one after another; a stop ends the sequence. -/
def runStages : List (State → Host.Outcome State Fault Refusal) → State → Host.Outcome State Fault Refusal
  | [], s => .next s
  | f :: fs, s => andThen (f s) (runStages fs)

/-- The first `done` operations of the tick whose record is sampled, and then `rst`, R200. -/
def cutTick (done : Nat) (s : State) : Host.Outcome State Fault Refusal :=
  match decode (tcwWord s) with
  | .ok i => andThen (runStages ((tickStages i).take done) s) fun u => .next (resetInTick u)
  | .error e => .refused (.undecodable e)

/-- `rst` in a tick after `done` of its operations, R200 (log entry 23). Outside RUN the tick is ignored and the reset is
one between ticks. -/
def takeRstInTick (t : TickIn) (done : Nat) (s : State) : Host.Outcome State Fault Refusal :=
  if s.mode = .run then cutTick done { s with tin := t } else .next (applyReset s)

/-- One input of the environment. -/
def takeInput (e : Input) (s : State) : Host.Outcome State Fault Refusal :=
  match e with
  | .rst => .next (applyReset s)
  | .rstInTick t done => takeRstInTick t done s
  | .boot b => takeBoot b s
  | .tick t => takeTick t s
  | .arrive bytes => .next (arriveBytes bytes s)

/-- The state in which a step takes its input: the outputs of the step before are gone, and `rest` is to come. -/
def State.afterInput (s : State) (rest : List Input) : State :=
  { s with out := TickOut.none, env := { s.env with inputs := rest } }

/-- The state in which a step runs the word in `seq`. -/
def State.afterSeq (s : State) : State := { s with out := TickOut.none, seq := none }

/-! ### Placing a word of the opcode table -/

/-- Bit `k` of a word. -/
def bitOf (w k : Nat) : Bool := w / 2 ^ k % 2 == 1

/-- Bytes for a read that gives the conditions `lenok` and `found`: none, nine with the marker first, or nine zeros. -/
def bytesFor (lenok found : Bool) : List Byte :=
  if lenok then
    (if found then Config.marker else []) ++
      List.replicate (Config.minLen - if found then Config.marker.length else 0) 0#8
  else []

/-- A tick record whose conditions are the word's evaluated bits. -/
def tickFor (w : Nat) : TickIn where
  halt := bitOf w 5
  chOpen := bitOf w 4
  rxAvail := if bitOf w 2 then Config.minLen else 0
  rx := bytesFor (bitOf w 1) (bitOf w 0)
  now := 0#64

/-- The state with an input placed first, for the given mode. -/
def State.withInput (s : State) (m : Mode) (e : Input) : State :=
  { s with mode := m, seq := none, env := { s.env with inputs := e :: s.env.inputs } }

/-- SCAN and ASM32 are defined only after a read of nine bytes or more: where the state holds none, one of nine bytes. -/
def State.withRead (s : State) : State :=
  if Config.minLen ≤ s.rawlen ∧ s.rawlen ≤ Config.cap ∧ s.idx + Config.payOff + Config.payLen ≤ s.rawlen then s
  else { s with rawlen := Config.minLen, idx := 0 }

/-- The state with a word placed where the next step takes it: a tick condition word as a tick that has those
conditions, a boot word as the boot's two answers, any other word in `seq`. -/
def State.placeWord (s : State) (w : FetchWord) : State :=
  match w.fmt with
  | .tcw =>
    { s with cnt := if bitOf (beNat w.bytes) 3 then ⟨Config.duePhase, by decide⟩ else ⟨0, by decide⟩ }.withInput .run
      (.tick (tickFor (beNat w.bytes)))
  | .boot => s.withInput .boot (.boot ⟨bitOf (beNat w.bytes) 1, bitOf (beNat w.bytes) 0⟩)
  | .uop =>
    if wordIs w .scan || wordIs w .asm32 then { s.withRead with seq := some w } else { s with seq := some w }
  | .req | .resp | .reading _ => { s with seq := some w }

end Sys2Proof.Machine
end

