-- ==== Sys2Proof/Machine/Step.lean ====
section
/-! DEFINITION. The step: the word in `seq` if there is one, else the next input of the environment. With no input left
nothing happens, for the block does nothing between events (40_poll_scheduler.md R100). -/

namespace Sys2Proof.Machine

/-- One step (R100, R200, R203; log entries 1 and 3). The word in `seq` is run whatever the mode, also in BOOT, FATAL and
HALTED, where the spec runs no micro-operation (R21, R173; DESIGN CHOICE, log entry 33). -/
def step (s : State) : Host.Outcome State Fault Refusal :=
  match s.seq with
  | some w => runWord w s.afterSeq
  | none =>
    match s.env.inputs with
    | [] => .next (s.afterInput [])
    | e :: rest => takeInput e (s.afterInput rest)

/-- The state with a word of the opcode table placed for the next step (log entries 2 and 4). A number that is no word of
the table leaves the state as it is. -/
def State.withFetchWord (s : State) (nbits w : Nat) : State :=
  match tableWord nbits w with
  | some fw => s.placeWord fw
  | none => s

end Sys2Proof.Machine
end

