-- ==== Sys2Proof/Safety.lean ====
section
/-! DEFINITION. The terms in which claims are made: markers in a byte list, the value of a floating-point word, the
invariant of the state, and what two states share when only scratch differs. -/

namespace Sys2Proof.Machine

/-- The marker stands at offset `j` of the bytes, R74. -/
def MarkerAt (bs : List Byte) (j : Nat) : Prop :=
  bs[j]? = some 0x01#8 ∧ bs[j + 1]? = some 0x03#8 ∧ bs[j + 2]? = some 0x04#8

/-- `i` is the lowest offset from 0 to `L - 8` where the marker stands, R123. -/
def FirstMarker (bs : List Byte) (i : Nat) : Prop :=
  i + 8 ≤ bs.length ∧ MarkerAt bs i ∧ ∀ j, j < i → ¬ MarkerAt bs j

/-- The marker stands at no offset from 0 to `L - 8`, R124. -/
def NoMarker (bs : List Byte) : Prop :=
  ∀ j, j + 8 ≤ bs.length → ¬ MarkerAt bs j

/-- The offset and the flag the search ends with, R125: the first marker's, or the fallback `L - 8`. -/
def Selected (bs : List Byte) (i : Nat) (f : Bool) : Prop :=
  (f = true ∧ FirstMarker bs i) ∨ (f = false ∧ NoMarker bs ∧ i + 8 = bs.length)

/-- The four bytes after an offset's marker bytes as a big-endian number, R52 and R141. -/
def payloadAt (bs : List Byte) (i : Nat) : Word32 :=
  u32be (bs.getD (i + 3) 0#8) (bs.getD (i + 4) 0#8) (bs.getD (i + 5) 0#8) (bs.getD (i + 6) 0#8)

/-- The bytes `rawbuf[0..rawlen-1]`, R26. -/
def State.buffer (s : State) : List Byte := (List.range s.rawlen).map (Memory.get s.rawbuf)

/-- The bytes a tick's read returns, R59 and R108: at most `min(rx_avail, 1024)` of what the channel has ready. -/
def TickIn.answer (t : TickIn) : List Byte := t.rx.take (min t.rxAvail 1024)

/-- After the bytes are stored from index 0, every byte of them is at its index and every other index reads as before,
R108. -/
def StoredFromZero (before : Memory) (bs : List Byte) (after : Memory) : Prop :=
  (∀ k, k < bs.length → Memory.get after k = bs.getD k 0#8) ∧
    ∀ k, bs.length ≤ k → Memory.get after k = Memory.get before k

/-- The number a floating-point word stands for, R144: zero, or a normal number. No other word arises (R145). -/
def floatValue (f : LenFmt) (x : FloatBits) : ℚ :=
  if x = 0#64 then 0
  else
    match f with
    | .binary64 =>
      (-1) ^ (x.toNat / 2 ^ 63) * (2 : ℚ) ^ (((x.toNat / 2 ^ 52 % 2 ^ 11 : ℕ) : ℤ) - 1023) *
        (1 + ((x.toNat % 2 ^ 52 : ℕ) : ℚ) / 2 ^ 52)
    | .binary32 =>
      (-1) ^ (x.toNat / 2 ^ 31) * (2 : ℚ) ^ (((x.toNat / 2 ^ 23 % 2 ^ 8 : ℕ) : ℤ) - 127) *
        (1 + ((x.toNat % 2 ^ 23 : ℕ) : ℚ) / 2 ^ 23)

/-- The word is a result of the scaling, R151 (the reset value +0.0 is the result for 0). -/
def IsScaled (f : LenFmt) (x : FloatBits) : Prop := ∃ v, q16ToFloat f v = x

/-- What every step keeps: the RawBuffer canonical and inside its 1024 bytes, the ranges of R20 for `rawlen` and `idx`, and
every `length` a result of the scaling (R151). -/
structure State.Inv (s : State) : Prop where
  rawbuf_wf : Memory.wf s.rawbuf
  rawbuf_cap : ∀ c ∈ s.rawbuf, c.1 < 1024
  rawlen_le : s.rawlen ≤ 1024
  idx_le : s.idx ≤ 1016
  length_scaled : IsScaled s.cfg.lenFmt s.reading.length
  len_scaled : IsScaled s.cfg.lenFmt s.len

/-- In BOOT and FATAL the counter, the Reading and the flags hold their reset values, R173 and R203, where the machine is
driven by the environment alone. -/
structure State.FreshUntilRun (s : State) : Prop where
  seq_none : s.seq = none
  fresh : s.mode = .boot ∨ s.mode = .fatal →
    s.cnt.val = 0 ∧ s.reading = ⟨0#64, 0#64⟩ ∧ s.decOk = false ∧ s.syncFound = false

/-- The state in which a tick's instruction runs: the outputs cleared, the tick taken off the inputs, its record sampled. -/
def State.tickState (s : State) (t : TickIn) (rest : List Input) : State := { s.afterInput rest with tin := t }

/-- The state in which a boot event runs. -/
def State.bootState (s : State) (b : BootIn) (rest : List Input) : State := { s.afterInput rest with bin := b }

/-- What a reset in a tick leaves, R200 and R201: the block at its reset values, and outside it what the outputs `o`, which
the tick had issued, and the `taken` bytes of its read have done. -/
def State.afterCut (s : State) (rest : List Input) (o : TickOut) (taken : Nat) : State :=
  { State.reset with
    cfg := s.cfg
    out := o
    env := ⟨rest, s.env.rxq.drop taken, s.env.sent ++ o.tx.getD [], s.env.sink ++ o.pub.toList⟩ }

/-- Instructions one after another, R106; a stop ends the sequence. -/
def runAll : List Instr → State → Host.Outcome State Fault Refusal
  | [], s => .next s
  | i :: is, s => andThen (exec i s) (runAll is)

/-- The seven tick outcomes, R80. -/
def tickOutcomes : List Instr :=
  [.idle, .skipClosed, .skipNoavail, .attShort, .attFallback, .attFound, .halt]

/-- The three boot events, R81. -/
def bootEvents : List Instr := [.bootOk, .fatalOpen, .fatalClosed]

/-- The state with the scratch elements of R44 and the two flags blanked. -/
def State.visible (s : State) : State :=
  { s with rawbuf := [], rawlen := 0, idx := 0, value := 0#32, len := 0#64, decOk := false, syncFound := false }

/-- Whole copies of the request, R71. -/
def WholeRequests (bs : List Byte) : Prop := ∃ k, bs = (List.replicate k Config.reqCmd).flatten

/-- The input is a reset, between ticks or in one. -/
def Input.isRst : Input → Bool
  | .rst | .rstInTick _ _ => true
  | .boot _ | .tick _ | .arrive _ => false

/-- A tick among the inputs reports no bytes available. -/
def Input.quiet : Input → Prop
  | .tick t | .rstInTick t _ => t.rxAvail = 0
  | .rst | .boot _ | .arrive _ => True

end Sys2Proof.Machine
end

