-- ==== Sys2Proof/Certificates/Slice0/Obligations.lean ====
section
/-! DEFINITION. The statements for the provers. Each names the rule of spec/ it formalises. -/

open Sys2Proof
open Sys2Proof.Machine

/-! ### Encodings (30_encoding.md) -/

/-- No bit of an encoding is dropped: every well-formed instruction decodes from its own word (R71, R73, R79 to R82). -/
def Obligations.DecodeOfEncode : Prop :=
  ∀ (f : LenFmt) (i : Instr), i.wellFormed f = true → decode (encode f i) = .ok i

/-- In the formats where every bit counts, a word that decodes is the word of what it decodes to. -/
def Obligations.EncodeOfDecode : Prop :=
  ∀ (f : LenFmt) (w : FetchWord) (i : Instr), decode w = .ok i →
    (w.fmt = .req ∨ w.fmt = .resp ∨ w.fmt = .reading f ∨ w.fmt = .uop) →
    i.wellFormed f = true ∧ encode f i = w

/-- R80 and R81: the seven patterns are disjoint and cover all 64 words, and so do the three over the boot words; the
first condition from the left that decides selects the outcome (R182). -/
def Obligations.ConditionWordsSelectOneOutcome : Prop :=
  (∀ v, v < 64 → (tcwRows.filter (fun r => r.hits v)).length = 1) ∧
  (∀ v, v < 4 → (bootRows.filter (fun r => r.hits v)).length = 1) ∧
  (∀ halt isOpen due avail lenok found : Bool,
    decode ⟨.tcw, beBytes 1 (halt.toNat * 32 + isOpen.toNat * 16 + due.toNat * 8 + avail.toNat * 4 +
        lenok.toNat * 2 + found.toNat)⟩ =
      .ok (if halt then .halt else if !isOpen then .skipClosed else if !due then .idle
        else if !avail then .skipNoavail else if !lenok then .attShort
        else if found then .attFound else .attFallback)) ∧
  (∀ openOk chOpen : Bool,
    decode ⟨.boot, beBytes 1 (openOk.toNat * 2 + chOpen.toNat)⟩ =
      .ok (if !openOk then .fatalOpen else if !chOpen then .fatalClosed else .bootOk))

/-- Words of 95_test_vectors.md section 2.7 and of the tables of R70, R73, R81, R82. And the model's choice (log entry 26): a
byte with a bit above the 6 of a tick condition word, the 2 of a boot word or the 3 of a micro-operation is rejected. -/
def Obligations.WordsOfTheTablesDecode : Prop :=
  decode ⟨.req, [0x01#8, 0x03#8, 0x00#8, 0x00#8, 0x00#8, 0x02#8, 0xC4#8, 0x0B#8]⟩ = .ok .req ∧
  decode ⟨.req, [0x01#8, 0x03#8, 0x00#8, 0x00#8, 0x00#8, 0x02#8, 0xC4#8, 0x0A#8]⟩ = .error .notRequest ∧
  decode ⟨.resp, [0x01#8, 0x03#8, 0x04#8, 0x00#8, 0x02#8, 0x80#8, 0x00#8]⟩ = .ok (.resp 0x00028000#32) ∧
  decode ⟨.resp, [0x01#8, 0x03#8, 0x05#8, 0x00#8, 0x02#8, 0x80#8, 0x00#8]⟩ = .error .notMarker ∧
  decode ⟨.tcw, [0x1D#8]⟩ = .ok .attShort ∧
  decode ⟨.boot, [0x2#8]⟩ = .ok .fatalClosed ∧
  decode ⟨.uop, [0x4#8]⟩ = .ok .asm32 ∧
  (∀ v, v < 256 → (64 ≤ v → decode ⟨.tcw, beBytes 1 v⟩ = .error .reservedBits) ∧
    (4 ≤ v → decode ⟨.boot, beBytes 1 v⟩ = .error .reservedBits) ∧
    (8 ≤ v → decode ⟨.uop, beBytes 1 v⟩ = .error .reservedBits))

/-- R71 and R73: of the 64-bit words only the one request is REQ; of the 56-bit words exactly those that match
`0x01030400000000` under the mask `0xFFFFFF00000000` are response frames, with the low 32 bits the payload. -/
def Obligations.FramesMatchTheirMasks : Prop :=
  (∀ v, v < 2 ^ 64 →
    decode ⟨.req, beBytes 8 v⟩ = if v = 0x010300000002C40B then .ok .req else .error .notRequest) ∧
  (∀ v, v < 2 ^ 56 →
    decode ⟨.resp, beBytes 7 v⟩ =
      if v &&& 0xFFFFFF00000000 = 0x01030400000000 then .ok (.resp (BitVec.ofNat 32 (v % 2 ^ 32)))
      else .error .notMarker)

/-! ### The micro-operations

Each statement says what an operation does at a state. When it runs is the attempt's business (R106), and that a word in
`seq` runs it in any mode, and without the operations before it, is the model's choice, log entries 33 and 34. -/

/-- WRREQ, R107: the eight request bytes go to the channel once, in order, and nothing else changes. That it
runs alone in any mode, and with the channel sampled closed, is the model's choice, log entry 33. -/
def Obligations.WrreqSendsTheRequest : Prop :=
  decode ⟨.uop, [0x0#8]⟩ = .ok .wrreq ∧ ∀ s : State, exec .wrreq s = .next { s with
    out := { s.out with tx := some [0x01#8, 0x03#8, 0x00#8, 0x00#8, 0x00#8, 0x02#8, 0xC4#8, 0x0B#8] }
    env := { s.env with
      sent := s.env.sent ++ [0x01#8, 0x03#8, 0x00#8, 0x00#8, 0x00#8, 0x02#8, 0xC4#8, 0x0B#8] } }

/-- RDBUF, R108: it asks for `min(rx_avail, 1024)` bytes and stores what comes from index 0; every other byte of the
RawBuffer reads as before and no other element changes. The answer's bytes leave the channel's queue (R59). For `rx_avail`
0, where R59 and R108 define no read, what it does is the model's choice, log entry 30; that it runs alone in any mode is
log entry 33. -/
def Obligations.RdbufStoresTheAnswer : Prop :=
  decode ⟨.uop, [0x1#8]⟩ = .ok .rdbuf ∧ ∀ s : State, Memory.wf s.rawbuf →
    ∃ m, StoredFromZero s.rawbuf s.tin.answer m ∧ exec .rdbuf s = .next { s with
      rawbuf := m
      rawlen := s.tin.answer.length
      out := { s.out with rdReq := some (min s.tin.rxAvail 1024) }
      env := { s.env with rxq := s.env.rxq.drop s.tin.answer.length } }

/-- LENCHK, R120: below nine bytes the flag `dec_ok` is cleared; otherwise nothing changes. -/
def Obligations.LenchkClearsOnlyOnShort : Prop :=
  decode ⟨.uop, [0x2#8]⟩ = .ok .lenchk ∧ ∀ s : State,
    (s.rawlen < 9 → exec .lenchk s = .next { s with decOk := false }) ∧
    (9 ≤ s.rawlen → exec .lenchk s = .next s)

/-- SCAN, R125: in every buffer of nine bytes or more the scan ends, never reads out of bounds, and selects the lowest
offset from 0 to `rawlen - 8` where the marker stands with `sync_found` 1, or else `rawlen - 8` with `sync_found` 0;
nothing else changes. -/
def Obligations.ScanSelectsFirstMarkerOrFallback : Prop :=
  decode ⟨.uop, [0x3#8]⟩ = .ok .scan ∧ ∀ s : State, 9 ≤ s.rawlen → s.rawlen ≤ 1024 →
    ∃ i f, exec .scan s = .next { s with idx := i, syncFound := f } ∧
      ((f = true ∧ i + 8 ≤ s.rawlen ∧ MarkerAt s.buffer i ∧ ∀ j, j < i → ¬ MarkerAt s.buffer j) ∨
        (f = false ∧ i + 8 = s.rawlen ∧ ∀ j, j + 8 ≤ s.rawlen → ¬ MarkerAt s.buffer j))

/-- The model's choice (log entry 17): SCAN run alone on fewer than nine bytes, where R122 has no meaning, stops. -/
def Obligations.ScanStopsBelowNine : Prop :=
  ∀ s : State, s.rawlen < 9 → exec .scan s = .fault .shortBuffer

/-- ASM32, R140 and R52: the four bytes after the selected offset's marker bytes, most significant first, are the new
`value`; nothing else changes. -/
def Obligations.Asm32IsBigEndian : Prop :=
  decode ⟨.uop, [0x4#8]⟩ = .ok .asm32 ∧ ∀ s : State, s.idx + 7 ≤ s.rawlen → s.rawlen ≤ 1024 →
    ∃ v : Word32, exec .asm32 s = .next { s with value := v } ∧
      v.toNat = (Memory.get s.rawbuf (s.idx + 3)).toNat * 2 ^ 24 + (Memory.get s.rawbuf (s.idx + 4)).toNat * 2 ^ 16 +
        (Memory.get s.rawbuf (s.idx + 5)).toNat * 2 ^ 8 + (Memory.get s.rawbuf (s.idx + 6)).toNat

/-- The model's choice (log entry 17): ASM32 run alone where R13 defines no `MemRead` stops. -/
def Obligations.Asm32StopsOutOfBounds : Prop :=
  ∀ s : State, ¬ (s.idx + 7 ≤ s.rawlen ∧ s.idx + 7 ≤ 1024) → exec .asm32 s = .fault .outOfBounds

/-- `u32_be`, R141: the sum, its range exactly the 32-bit numbers, and no two quadruples the same. -/
def Obligations.U32beIsABijection : Prop :=
  (∀ b3 b2 b1 b0 : Byte, (u32be b3 b2 b1 b0).toNat =
      b3.toNat * 2 ^ 24 + b2.toNat * 2 ^ 16 + b1.toNat * 2 ^ 8 + b0.toNat ∧
    u32be b3 b2 b1 b0 = b3 ++ b2 ++ b1 ++ b0) ∧
  (∀ v : Word32, ∃ b3 b2 b1 b0, u32be b3 b2 b1 b0 = v) ∧
  (∀ b3 b2 b1 b0 c3 c2 c1 c0 : Byte, u32be b3 b2 b1 b0 = u32be c3 c2 c1 c0 →
    b3 = c3 ∧ b2 = c2 ∧ b1 = c1 ∧ b0 = c0)

/-- SCALE, R143: the result handed to STAMP is the number `value / 65536`, exactly in BINARY64; no element of the block
changes (`len` is the model's hand-over latch, log entry 7). The corner cases are the rule's. -/
def Obligations.ScaleDividesBy65536 : Prop :=
  decode ⟨.uop, [0x5#8]⟩ = .ok .scale ∧
  (∀ s : State, ∃ x, exec .scale s = .next { s with len := x } ∧ x = q16ToFloat s.cfg.lenFmt s.value ∧
    (s.cfg.lenFmt = .binary64 → floatValue .binary64 x = (s.value.toNat : ℚ) / 65536)) ∧
  (∀ f, q16ToFloat f 0#32 = 0#64 ∧ floatValue f (q16ToFloat f 0x00010000#32) = 1 ∧
    floatValue f (q16ToFloat f 1#32) = 1 / 65536) ∧
  floatValue .binary64 (q16ToFloat .binary64 0xFFFFFFFF#32) = 4294967295 / 65536 ∧
  floatValue .binary32 (q16ToFloat .binary32 0xFFFFFFFF#32) = 65536

/-- STAMP, R148: both fields of the Reading and `dec_ok` are written, the timestamp an unchanged sample of the clock. -/
def Obligations.StampWritesTheReading : Prop :=
  decode ⟨.uop, [0x6#8]⟩ = .ok .stamp ∧ ∀ s : State, exec .stamp s = .next { s with reading := ⟨s.tin.now, s.len⟩, decOk := true }

/-- PUBLISH, R160: one record, a copy of both fields, goes to the sink; the Reading keeps its value. -/
def Obligations.PublishCopiesTheReading : Prop :=
  decode ⟨.uop, [0x7#8]⟩ = .ok .publish ∧ ∀ s : State, exec .publish s = .next { s with
    out := { s.out with pub := some ⟨s.reading.timestamp, s.reading.length⟩ }
    env := { s.env with sink := s.env.sink ++ [⟨s.reading.timestamp, s.reading.length⟩] } }

/-! ### The three formats as instructions (log entry 18) -/

/-- The model's choice (log entry 18): REQ hands over its own frame, which is what WRREQ sends. -/
def Obligations.RequestRowSendsItsFrame : Prop :=
  ∀ s : State, exec .req s = .next { s with
      out := { s.out with tx := some (encode s.cfg.lenFmt .req).bytes }
      env := { s.env with sent := s.env.sent ++ (encode s.cfg.lenFmt .req).bytes } } ∧
    exec .req s = exec .wrreq s

/-- The model's choice (log entry 18): RESP is recognised with its payload as the value; and where a scan has found the
frame in the buffer, that is what ASM32 does. -/
def Obligations.ResponseRowIsWhatAsm32Reads : Prop :=
  (∀ (v : Word32) (s : State), exec (.resp v) s = .next { s with value := v, syncFound := true }) ∧
  ∀ (v : Word32) (s : State) (bs : List Byte), memRead s s.idx 7 = some bs → decode ⟨.resp, bs⟩ = .ok (.resp v) →
    s.syncFound = true → exec .asm32 s = exec (.resp v) s

/-- R79's layout: the word whose high 64 bits are the timestamp and whose low 64 bits (BINARY64) or 32 bits (BINARY32) are
the length decodes to that record. And the model's choice (log entries 18 and 33): READING hands its record to the sink;
PUBLISH is that for the Reading held. -/
def Obligations.ReadingRowIsTheRecordPublished : Prop :=
  (∀ t l : FloatBits,
    decode ⟨.reading .binary64, beBytes 16 (t.toNat * 2 ^ 64 + l.toNat)⟩ = .ok (.reading t l) ∧
    (l.toNat < 2 ^ 32 →
      decode ⟨.reading .binary32, beBytes 12 (t.toNat * 2 ^ 32 + l.toNat)⟩ = .ok (.reading t l))) ∧
  (∀ (t l : FloatBits) (s : State), exec (.reading t l) s = .next { s with
      out := { s.out with pub := some ⟨t, l⟩ }
      env := { s.env with sink := s.env.sink ++ [⟨t, l⟩] } }) ∧
  ∀ s : State, exec .publish s = exec (.reading s.reading.timestamp s.reading.length) s

/-! ### The tick outcomes -/

/-- IDLE, R101: a tick on an open channel that is not due advances the counter and does nothing else. -/
def Obligations.IdleOnlyAdvances : Prop :=
  ∀ s : State, s.mode = .run → s.tin.halt = false → s.tin.chOpen = true → s.cnt.val ≠ 9 →
    ∃ c : Fin Config.cycleLen, c.val = s.cnt.val + 1 ∧
      exec .idle s = .next { s with cnt := c, out := { s.out with outcome := some .idle } }

/-- SKIP_CLOSED, R176: on any tick of a closed channel `closed_evt` pulses, the counter advances, nothing else changes. -/
def Obligations.SkipClosedPulsesAndAdvances : Prop :=
  ∀ s : State, s.mode = .run → s.tin.halt = false → s.tin.chOpen = false →
    ∃ c : Fin Config.cycleLen, c.val = (if s.cnt.val + 1 = 10 then 0 else s.cnt.val + 1) ∧
      exec .skipClosed s = .next { s with
        cnt := c, out := { s.out with outcome := some .skipClosed, closedEvt := true } }

/-- SKIP_NOAVAIL, R104 and R105: a due tick with no bytes available makes no attempt; with `REQ_GATE = DUE` the request is
written, with AVAIL it is not. -/
def Obligations.SkipNoavailWritesOnlyUnderDue : Prop :=
  ∀ s : State, s.mode = .run → s.tin.halt = false → s.tin.chOpen = true → s.cnt.val = 9 → s.tin.rxAvail = 0 →
    ∃ c : Fin Config.cycleLen, c.val = 0 ∧
      (s.cfg.reqGate = .avail → exec .skipNoavail s = .next { s with
        cnt := c, out := { s.out with outcome := some .skipNoavail } }) ∧
      (s.cfg.reqGate = .due → exec .skipNoavail s = .next { s with
        cnt := c
        out := { s.out with outcome := some .skipNoavail, tx := some Config.reqCmd }
        env := { s.env with sent := s.env.sent ++ Config.reqCmd } })

/-- ATT_SHORT, R106, R120 and R161: fewer than nine bytes read; the request was written and the read made, `dec_ok` is
cleared, the old Reading is published, the counter wraps; the other elements keep their values. -/
def Obligations.AttShortRepublishes : Prop :=
  ∀ s : State, Memory.wf s.rawbuf → s.mode = .run → s.tin.halt = false → s.tin.chOpen = true → s.cnt.val = 9 →
    s.tin.rxAvail ≠ 0 → s.tin.answer.length < 9 →
    ∃ m c, StoredFromZero s.rawbuf s.tin.answer m ∧ c.val = 0 ∧ exec .attShort s = .next { s with
      cnt := c
      rawbuf := m
      rawlen := s.tin.answer.length
      decOk := false
      out := { s.out with
        outcome := some .attShort, tx := some Config.reqCmd, rdReq := some (min s.tin.rxAvail 1024)
        pub := some s.reading }
      env := { s.env with
        rxq := s.env.rxq.drop s.tin.answer.length, sent := s.env.sent ++ Config.reqCmd
        sink := s.env.sink ++ [s.reading] } }

/-- ATT_FOUND, R106, R123, R140, R143, R148 and R161: from the bytes read to the record published, when the lowest
offset at which the marker stands is `i`. -/
def Obligations.AttFoundDecodesTheFirstFrame : Prop :=
  ∀ (s : State) (i : Nat), Memory.wf s.rawbuf → s.mode = .run → s.tin.halt = false → s.tin.chOpen = true →
    s.cnt.val = 9 → s.tin.rxAvail ≠ 0 → 9 ≤ s.tin.answer.length → FirstMarker s.tin.answer i →
    ∃ m c v x, StoredFromZero s.rawbuf s.tin.answer m ∧ c.val = 0 ∧ v = payloadAt s.tin.answer i ∧
      x = q16ToFloat s.cfg.lenFmt v ∧ exec .attFound s = .next { s with
        cnt := c
        rawbuf := m
        rawlen := s.tin.answer.length
        idx := i
        syncFound := true
        value := v
        len := x
        reading := ⟨s.tin.now, x⟩
        decOk := true
        out := { s.out with
          outcome := some .attFound, tx := some Config.reqCmd, rdReq := some (min s.tin.rxAvail 1024)
          pub := some ⟨s.tin.now, x⟩ }
        env := { s.env with
          rxq := s.env.rxq.drop s.tin.answer.length, sent := s.env.sent ++ Config.reqCmd
          sink := s.env.sink ++ [⟨s.tin.now, x⟩] } }

/-- ATT_FALLBACK, R106 and R124: with no marker the offset is `L - 8` and the decode goes on as if one had been found. -/
def Obligations.AttFallbackDecodesAtLMinus8 : Prop :=
  ∀ s : State, Memory.wf s.rawbuf → s.mode = .run → s.tin.halt = false → s.tin.chOpen = true →
    s.cnt.val = 9 → s.tin.rxAvail ≠ 0 → 9 ≤ s.tin.answer.length → NoMarker s.tin.answer →
    ∃ m c v x, StoredFromZero s.rawbuf s.tin.answer m ∧ c.val = 0 ∧
      v = payloadAt s.tin.answer (s.tin.answer.length - 8) ∧
      x = q16ToFloat s.cfg.lenFmt v ∧ exec .attFallback s = .next { s with
        cnt := c
        rawbuf := m
        rawlen := s.tin.answer.length
        idx := s.tin.answer.length - 8
        syncFound := false
        value := v
        len := x
        reading := ⟨s.tin.now, x⟩
        decOk := true
        out := { s.out with
          outcome := some .attFallback, tx := some Config.reqCmd, rdReq := some (min s.tin.rxAvail 1024)
          pub := some ⟨s.tin.now, x⟩ }
        env := { s.env with
          rxq := s.env.rxq.drop s.tin.answer.length, sent := s.env.sent ++ Config.reqCmd
          sink := s.env.sink ++ [⟨s.tin.now, x⟩] } }

/-- HALT, R181: only `mode` changes; the counter does not advance, and neither the closed test nor the gate matters. -/
def Obligations.HaltOnlyEntersHalted : Prop :=
  ∀ s : State, s.mode = .run → s.tin.halt = true →
    exec .halt s = .next { s with mode := .halted, out := { s.out with outcome := some .halt } }

/-- R80, R81 and R100: in RUN exactly one of the seven outcomes runs and the others stop; in BOOT exactly one of the three
boot events runs; in any other mode none does. -/
def Obligations.ExactlyOneOutcomeRuns : Prop :=
  (∀ s : State, s.mode = .run → ∃ i ∈ tickOutcomes, (∃ t, exec i s = .next t) ∧
    ∀ j ∈ tickOutcomes, j ≠ i → exec j s = .fault .notSelected) ∧
  (∀ s : State, s.mode ≠ .run → ∀ j ∈ tickOutcomes, exec j s = .fault .notSelected) ∧
  (∀ s : State, s.mode = .boot → ∃ i ∈ bootEvents, (∃ t, exec i s = .next t) ∧
    ∀ j ∈ bootEvents, j ≠ i → exec j s = .fault .notSelected) ∧
  (∀ s : State, s.mode ≠ .boot → ∀ j ∈ bootEvents, exec j s = .fault .notSelected)

/-- R106: an attempt is its micro-operations in their order, and then the counter's advance and the outcome. -/
def Obligations.AttemptIsItsMicroOperations : Prop :=
  ∀ s t : State,
    (exec .attShort s = .next t → ∃ u c, runAll [.wrreq, .rdbuf, .lenchk, .publish] s = .next u ∧
      c.val = (s.cnt.val + 1) % 10 ∧ t = { u with cnt := c, out := { u.out with outcome := some .attShort } }) ∧
    (exec .attFound s = .next t →
      ∃ u c, runAll [.wrreq, .rdbuf, .lenchk, .scan, .asm32, .scale, .stamp, .publish] s = .next u ∧
        c.val = (s.cnt.val + 1) % 10 ∧ t = { u with cnt := c, out := { u.out with outcome := some .attFound } }) ∧
    (exec .attFallback s = .next t →
      ∃ u c, runAll [.wrreq, .rdbuf, .lenchk, .scan, .asm32, .scale, .stamp, .publish] s = .next u ∧
        c.val = (s.cnt.val + 1) % 10 ∧ t = { u with cnt := c, out := { u.out with outcome := some .attFallback } })

/-! ### Boot and reset -/

/-- BOOT_OK, FATAL_OPEN and FATAL_CLOSED, R81, R171, R172 and R203: of the block's elements `mode` is all that changes. That
the event is reported in the field `outcome` is the model's choice, log entry 25. -/
def Obligations.BootEventsSetTheMode : Prop :=
  ∀ s : State, s.mode = .boot →
    (s.bin.openOk = true → s.bin.chOpen = true →
      exec .bootOk s = .next { s with mode := .run, out := { s.out with outcome := some .bootOk } }) ∧
    (s.bin.openOk = false →
      exec .fatalOpen s = .next { s with mode := .fatal, out := { s.out with outcome := some .fatalOpen } }) ∧
    (s.bin.openOk = true → s.bin.chOpen = false →
      exec .fatalClosed s = .next { s with mode := .fatal, out := { s.out with outcome := some .fatalClosed } })

/-- The boot sequence as a step, R203: in BOOT its two answers decide the mode and nothing is sent, read or published;
in every other mode they are not consulted (log entry 13). That the boot event is reported in the field `outcome` is the
model's choice, log entry 25. -/
def Obligations.BootStepFollowsTheTwoChecks : Prop :=
  ∀ (s : State) (b : BootIn) (rest : List Input), s.seq = none → s.env.inputs = .boot b :: rest →
    (s.mode = .boot → step s = .next
      { s.bootState b rest with
        mode := if b.openOk = false then .fatal else if b.chOpen = false then .fatal else .run
        out := ⟨some (if b.openOk = false then .fatalOpen else if b.chOpen = false then .fatalClosed else .bootOk),
          none, none, none, false⟩ }) ∧
    (s.mode ≠ .boot → step s = .next (s.afterInput rest))

/-- `rst`, R200 and R201: from every mode the elements take the values R42 gives, and nothing outside the block changes
but that the event is taken. The scratch elements' values are the model's choice (log entry 10) and not stated here. -/
def Obligations.ResetStepRestoresTheBlock : Prop :=
  ∀ (s : State) (rest : List Input), s.seq = none → s.env.inputs = .rst :: rest →
    ∃ t, step s = .next t ∧ t.mode = .boot ∧ t.cnt.val = 0 ∧ t.rawlen = 0 ∧ t.reading = ⟨0#64, 0#64⟩ ∧
      t.decOk = false ∧ t.syncFound = false ∧ t.out = TickOut.none ∧ t.cfg = s.cfg ∧ t.seq = none ∧
      t.env = { s.env with inputs := rest }

/-- `rst` in a tick, R200 and R201: the block takes its reset values and the tick's remaining events are not issued. What
the first `n` operations of the tick (R106) have sent, read and published stays with the environment. That a reset lands
between two operations, and that the events issued are the step's outputs, is the model's choice (log entry 23), as are the
scratch elements' reset values (log entry 10). -/
def Obligations.ResetInATickDropsItsRemainingEvents : Prop :=
  ∀ (s : State) (t : TickIn) (n : Nat) (rest : List Input), Memory.wf s.rawbuf → s.seq = none →
    s.env.inputs = .rstInTick t n :: rest →
    (s.mode ≠ .run → step s = .next (s.afterCut rest TickOut.none 0)) ∧
    (s.mode = .run → t.halt = true → step s = .next (s.afterCut rest TickOut.none 0)) ∧
    (s.mode = .run → t.halt = false → t.chOpen = false →
      step s = .next (s.afterCut rest ⟨none, none, none, none, decide (1 ≤ n)⟩ 0)) ∧
    (s.mode = .run → t.halt = false → t.chOpen = true → s.cnt.val ≠ 9 →
      step s = .next (s.afterCut rest TickOut.none 0)) ∧
    (s.mode = .run → t.halt = false → t.chOpen = true → s.cnt.val = 9 → t.rxAvail = 0 →
      step s = .next (s.afterCut rest
        ⟨none, if 1 ≤ n ∧ s.cfg.reqGate = .due then some Config.reqCmd else none, none, none, false⟩ 0)) ∧
    (∀ (k : Nat) (r : Reading), s.mode = .run → t.halt = false → t.chOpen = true → s.cnt.val = 9 → t.rxAvail ≠ 0 →
      ((t.answer.length < 9 ∧ k = 4 ∧ r = s.reading) ∨
        (9 ≤ t.answer.length ∧ k = 8 ∧ ∃ i f, Selected t.answer i f ∧
          r = ⟨t.now, q16ToFloat s.cfg.lenFmt (payloadAt t.answer i)⟩)) →
      step s = .next (s.afterCut rest
        ⟨none, if 1 ≤ n then some Config.reqCmd else none, if 2 ≤ n then some (min t.rxAvail 1024) else none,
          if k ≤ n then some r else none, false⟩
        (if 2 ≤ n then t.answer.length else 0)))

/-- R42: the state after reset, the elements it gives a value. -/
def Obligations.ResetStateIsTheTables : Prop :=
  State.reset.mode = .boot ∧ State.reset.cnt.val = 0 ∧ State.reset.rawlen = 0 ∧
    State.reset.reading.timestamp = 0#64 ∧ State.reset.reading.length = 0#64 ∧ State.reset.decOk = false ∧
    State.reset.syncFound = false ∧ State.reset.out = TickOut.none ∧ fatalOut State.reset = false ∧
    haltedOut State.reset = false

/-- R40, R173 and R181: the level output `fatal` is 1 exactly in mode FATAL, and `halted` exactly in mode HALTED. -/
def Obligations.LevelOutputsFollowTheMode : Prop :=
  ∀ s : State, (fatalOut s = true ↔ s.mode = .fatal) ∧ (haltedOut s = true ↔ s.mode = .halted)

/-! ### The step -/

/-- A step runs the instruction its word decodes to: the word in `seq`, the tick's condition word, or the boot word. -/
def Obligations.StepRunsTheDecodedInstruction : Prop :=
  (∀ (s : State) (w : FetchWord) (i : Instr), s.seq = some w → decode w = .ok i → step s = exec i s.afterSeq) ∧
  (∀ (s : State) (t : TickIn) (rest : List Input) (i : Instr), s.seq = none → s.env.inputs = .tick t :: rest →
    s.mode = .run → decode (tcwWord (s.tickState t rest)) = .ok i → step s = exec i (s.tickState t rest)) ∧
  (∀ (s : State) (b : BootIn) (rest : List Input) (i : Instr), s.seq = none → s.env.inputs = .boot b :: rest →
    s.mode = .boot → decode (bootWord (s.bootState b rest)) = .ok i → step s = exec i (s.bootState b rest))

/-- The model's placing of a word (log entry 2), for every format: the next step runs the instruction the word decodes to,
a tick condition word as the tick placed, a boot word as the two answers placed, any other from `seq`; and it answers a
next state. A tick's read needs the RawBuffer canonical, which every step keeps (`StepKeepsTheStateInvariant`). -/
def Obligations.PlacedWordRunsNext : Prop :=
  ∀ (s : State) (w : FetchWord) (i : Instr), decode w = .ok i → (w.fmt = .tcw → Memory.wf s.rawbuf) →
    (w.fmt ≠ .tcw → w.fmt ≠ .boot → step (s.placeWord w) = exec i (s.placeWord w).afterSeq) ∧
    (w.fmt = .boot → step (s.placeWord w) =
      exec i ((s.placeWord w).bootState ⟨bitOf (beNat w.bytes) 1, bitOf (beNat w.bytes) 0⟩ s.env.inputs)) ∧
    (w.fmt = .tcw →
      step (s.placeWord w) = exec i ((s.placeWord w).tickState (tickFor (beNat w.bytes)) s.env.inputs)) ∧
    ∃ t, step (s.placeWord w) = .next t

/-- R179 and R174: whatever the environment does, a step ends in a next state: no input is a fault, none is refused. For
a tick in FATAL or HALTED this follows log entry 12 (R173, R181; U13 calls these modes stuck), and for a boot input outside
BOOT it is the model's choice, log entry 13. -/
def Obligations.EveryInputHasANextState : Prop :=
  ∀ s : State, s.seq = none → ∃ t, step s = .next t ∧ t.seq = none ∧ t.cfg = s.cfg ∧ t.env.inputs = s.env.inputs.tail

/-- R173, R181 and R203: outside RUN a tick is ignored: it is taken off the inputs, no event is issued, and nothing else
changes. -/
def Obligations.TickOutsideRunIsIgnored : Prop :=
  ∀ (s : State) (t : TickIn) (rest : List Input), s.seq = none → s.env.inputs = .tick t :: rest → s.mode ≠ .run →
    step s = .next { s with out := TickOut.none, env := { s.env with inputs := rest } }

/-- R35(a), the queue of the channel: bytes that arrive join its end and the block does nothing; and with no input left
nothing happens at all (R100). -/
def Obligations.BlockActsOnlyOnItsEvents : Prop :=
  (∀ (s : State) (bs : List Byte) (rest : List Input), s.seq = none → s.env.inputs = .arrive bs :: rest →
    step s = .next { s with
      out := TickOut.none, env := { s.env with inputs := rest, rxq := s.env.rxq ++ bs } }) ∧
  (∀ s : State, s.seq = none → s.env.inputs = [] → step s = .next { s with out := TickOut.none })

/-- R182 (and R80): at a tick in RUN the conditions are tested in a fixed order, and the first that holds decides the
outcome, whatever the later ones. -/
def Obligations.TickPriorityIsFixed : Prop :=
  ∀ (s : State) (t : TickIn) (rest : List Input), Memory.wf s.rawbuf → s.seq = none →
    s.env.inputs = .tick t :: rest → s.mode = .run →
    ∃ u, step s = .next u ∧
      (t.halt = true → u.out.outcome = some .halt) ∧
      (t.halt = false → t.chOpen = false → u.out.outcome = some .skipClosed) ∧
      (t.halt = false → t.chOpen = true → s.cnt.val ≠ 9 → u.out.outcome = some .idle) ∧
      (t.halt = false → t.chOpen = true → s.cnt.val = 9 → t.rxAvail = 0 → u.out.outcome = some .skipNoavail) ∧
      (t.halt = false → t.chOpen = true → s.cnt.val = 9 → t.rxAvail ≠ 0 → t.answer.length < 9 →
        u.out.outcome = some .attShort) ∧
      (t.halt = false → t.chOpen = true → s.cnt.val = 9 → t.rxAvail ≠ 0 → 9 ≤ t.answer.length →
        NoMarker t.answer → u.out.outcome = some .attFallback) ∧
      (t.halt = false → t.chOpen = true → s.cnt.val = 9 → t.rxAvail ≠ 0 → 9 ≤ t.answer.length →
        (∃ i, FirstMarker t.answer i) → u.out.outcome = some .attFound)

/-- R22 and R100: every tick taken in RUN that is not HALT advances the counter once, wrapping at ten, whatever its
outcome; HALT leaves it. -/
def Obligations.EveryTickAdvancesTheCounter : Prop :=
  ∀ (s : State) (t : TickIn) (rest : List Input), s.seq = none → s.env.inputs = .tick t :: rest → s.mode = .run →
    ∃ u, step s = .next u ∧
      (t.halt = false → u.mode = .run ∧ u.cnt.val = if s.cnt.val + 1 = 10 then 0 else s.cnt.val + 1) ∧
      (t.halt = true → u.mode = .halted ∧ u.cnt = s.cnt)

/-- R104 with the shutdown test before it (R100, R181): in both settings the request is written at most once in a tick,
exactly when `halt` is 0, the channel is open and the tick is due and bytes are available or `REQ_GATE` is DUE. -/
def Obligations.RequestWrittenExactlyWhen : Prop :=
  ∀ (s : State) (t : TickIn) (rest : List Input), s.seq = none → s.env.inputs = .tick t :: rest → s.mode = .run →
    ∃ u, step s = .next u ∧
      ((t.halt = false ∧ t.chOpen = true ∧ s.cnt.val = 9 ∧ (t.rxAvail ≠ 0 ∨ s.cfg.reqGate = .due)) →
        u.out.tx = some Config.reqCmd ∧ u.env.sent = s.env.sent ++ Config.reqCmd) ∧
      (¬ (t.halt = false ∧ t.chOpen = true ∧ s.cnt.val = 9 ∧ (t.rxAvail ≠ 0 ∨ s.cfg.reqGate = .due)) →
        u.out.tx = none ∧ u.env.sent = s.env.sent)

/-- R106, R112, R161 and R162: a tick reads the channel and publishes exactly when it makes an attempt, once each; the
record is the Reading after the attempt. `closed_evt` pulses exactly on SKIP_CLOSED (R40). -/
def Obligations.ReadAndPublishExactlyInAttempts : Prop :=
  ∀ (s : State) (t : TickIn) (rest : List Input), s.seq = none → s.env.inputs = .tick t :: rest → s.mode = .run →
    ∃ u, step s = .next u ∧
      ((t.halt = false ∧ t.chOpen = true ∧ s.cnt.val = 9 ∧ t.rxAvail ≠ 0) →
        u.out.rdReq = some (min t.rxAvail 1024) ∧ u.out.pub = some u.reading ∧
          u.env.sink = s.env.sink ++ [u.reading]) ∧
      (¬ (t.halt = false ∧ t.chOpen = true ∧ s.cnt.val = 9 ∧ t.rxAvail ≠ 0) →
        u.out.rdReq = none ∧ u.out.pub = none ∧ u.env.sink = s.env.sink ∧ u.env.rxq = s.env.rxq) ∧
      u.out.closedEvt = (!t.halt && !t.chOpen)

/-- The decoder from end to end, R29, R31, R120, R125, R140, R143, R147, R148: at a tick in RUN the Reading is written
exactly when an attempt read nine bytes or more, with the tick's own clock sample and the scaled payload at the offset
the search of the bytes read selects; a short attempt clears `dec_ok` and nothing else of these; any other tick keeps all. -/
def Obligations.TickDecodesItsOwnBytes : Prop :=
  ∀ (s : State) (t : TickIn) (rest : List Input), Memory.wf s.rawbuf → s.seq = none →
    s.env.inputs = .tick t :: rest → s.mode = .run →
    ∃ u, step s = .next u ∧
      ((t.halt = false ∧ t.chOpen = true ∧ s.cnt.val = 9 ∧ t.rxAvail ≠ 0 ∧ 9 ≤ t.answer.length) →
        ∃ i f, Selected t.answer i f ∧ u.idx = i ∧ u.syncFound = f ∧ u.decOk = true ∧
          u.reading = ⟨t.now, q16ToFloat s.cfg.lenFmt (payloadAt t.answer i)⟩) ∧
      ((t.halt = false ∧ t.chOpen = true ∧ s.cnt.val = 9 ∧ t.rxAvail ≠ 0 ∧ t.answer.length < 9) →
        u.decOk = false ∧ u.syncFound = s.syncFound ∧ u.reading = s.reading) ∧
      (¬ (t.halt = false ∧ t.chOpen = true ∧ s.cnt.val = 9 ∧ t.rxAvail ≠ 0) →
        u.decOk = s.decOk ∧ u.syncFound = s.syncFound ∧ u.reading = s.reading)

/-! ### Invariants -/

/-- Every step keeps the RawBuffer canonical and inside its capacity, `rawlen` and `idx` in the ranges of R20, and every
`length` a result of the scaling (R151). -/
def Obligations.StepKeepsTheStateInvariant : Prop :=
  ∀ s t : State, s.Inv → step s = .next t → t.Inv

/-- The state after reset meets it. -/
def Obligations.ResetMeetsTheStateInvariant : Prop := State.reset.Inv

/-- Driven by the environment alone, every step keeps this: in BOOT and FATAL the counter, the Reading and the flags hold
their reset values (R173, R203). -/
def Obligations.FatalKeepsTheResetValues : Prop :=
  State.reset.FreshUntilRun ∧ ∀ s t : State, s.FreshUntilRun → step s = .next t → t.FreshUntilRun

/-- R71: every step keeps what was sent a whole number of copies of the one request. That a reset never cuts one in two is
the model's choice, log entry 23. -/
def Obligations.OnlyWholeRequestsAreSent : Prop :=
  WholeRequests State.reset.env.sent ∧
    ∀ s t : State, WholeRequests s.env.sent → step s = .next t → WholeRequests t.env.sent

/-! ### Runs -/

/-- R109: in ten consecutive ticks taken in RUN at most one attempt, one request and one publish happen; with the channel
open and bytes available throughout, exactly one. The counter comes back to where it was. -/
def Obligations.TenTicksHoldOneAttempt : Prop :=
  ∀ (s : State) (ts : List TickIn) (rest : List Input), s.seq = none → s.mode = .run → ts.length = 10 →
    s.env.inputs = ts.map Input.tick ++ rest → (∀ t ∈ ts, t.halt = false) →
    ∃ u, Host.Core.run Sys2Proof.core 10 s = .next u ∧ u.mode = .run ∧ u.cnt = s.cnt ∧ u.env.inputs = rest ∧
      u.env.sink.length ≤ s.env.sink.length + 1 ∧ u.env.sent.length ≤ s.env.sent.length + 8 ∧
      ((∀ t ∈ ts, t.chOpen = true ∧ t.rxAvail ≠ 0) →
        u.env.sink.length = s.env.sink.length + 1 ∧ u.env.sent.length = s.env.sent.length + 8)

/-- R211: under `REQ_GATE = AVAIL`, while no tick reports bytes available, nothing is ever written or published, however
long the run. -/
def Obligations.NoBytesNoRequestUnderAvail : Prop :=
  ∀ (n : Nat) (s : State), s.seq = none → s.cfg.reqGate = .avail → (∀ e ∈ s.env.inputs, e.quiet) →
    ∃ u, Host.Core.run Sys2Proof.core n s = .next u ∧ u.env.sent = s.env.sent ∧ u.env.sink = s.env.sink

/-- R173 and R181: FATAL and HALTED are left by reset alone: in a run without one every element of the block keeps its
value and nothing is sent or published. -/
def Obligations.TerminalModesHoldWithoutReset : Prop :=
  ∀ (n : Nat) (s : State), s.seq = none → (s.mode = .fatal ∨ s.mode = .halted) →
    (∀ e ∈ s.env.inputs, e.isRst = false) →
    ∃ u, Host.Core.run Sys2Proof.core n s = .next u ∧ u.mode = s.mode ∧ u.cnt = s.cnt ∧ u.rawbuf = s.rawbuf ∧
      u.rawlen = s.rawlen ∧ u.idx = s.idx ∧ u.value = s.value ∧ u.reading = s.reading ∧ u.decOk = s.decOk ∧
      u.syncFound = s.syncFound ∧ u.env.sent = s.env.sent ∧ u.env.sink = s.env.sink

/-! ### What cannot matter -/

/-- R44, R31 and R32: the scratch elements and the two flags at the start of a step never influence anything else: two
states that differ in them alone step to states that differ in them alone, with the same outputs. -/
def Obligations.ScratchAndFlagsInfluenceNothing : Prop :=
  ∀ s t : State, Memory.wf s.rawbuf → Memory.wf t.rawbuf → s.seq = none → s.visible = t.visible →
    ∃ u v, step s = .next u ∧ step t = .next v ∧ u.visible = v.visible

/-- R55: the last byte of the buffer is never read: two buffers that agree below it give the same scan, and the same
assembly at every offset the scan can select. -/
def Obligations.LastByteIsNeverRead : Prop :=
  ∀ (s : State) (m : Memory), 9 ≤ s.rawlen → s.rawlen ≤ 1024 →
    (∀ k, k + 1 < s.rawlen → Memory.get m k = Memory.get s.rawbuf k) →
    (∃ i f, exec .scan s = .next { s with idx := i, syncFound := f } ∧
      exec .scan { s with rawbuf := m } = .next { s with rawbuf := m, idx := i, syncFound := f }) ∧
    (s.idx + 8 ≤ s.rawlen → ∃ v, exec .asm32 s = .next { s with value := v } ∧
      exec .asm32 { s with rawbuf := m } = .next { s with rawbuf := m, value := v })

/-- R59: with a faithful channel, whose answer is the oldest bytes of its queue, the bytes stored and the bytes left are
the queue: a byte is returned by at most one read, and bytes not returned stay, those above 1024 among them (R68). For
`rx_avail` 0, where R59 defines no read, what RDBUF does is the model's choice, log entry 30. -/
def Obligations.FaithfulChannelLosesNothing : Prop :=
  ∀ s : State, Memory.wf s.rawbuf → s.tin.rx <+: s.env.rxq →
    ∃ t, exec .rdbuf s = .next t ∧ t.buffer ++ t.env.rxq = s.env.rxq ∧ t.rawlen ≤ 1024 ∧ t.rawlen ≤ s.tin.rxAvail

/-! ### The scaling (42_fixed_point_scaler.md) -/

/-- R145, BINARY64: the word is exact and every field is as the rule says. -/
def Obligations.Binary64IsExact : Prop :=
  ∀ v : Word32, floatValue .binary64 (q16ToFloat .binary64 v) = (v.toNat : ℚ) / 65536 ∧
    (v ≠ 0#32 → (q16ToFloat .binary64 v).toNat / 2 ^ 52 = 1007 + v.toNat.log2 ∧
      (q16ToFloat .binary64 v).toNat % 2 ^ 52 = (v.toNat - 2 ^ v.toNat.log2) * 2 ^ (52 - v.toNat.log2))

/-- R145, BINARY32: exact up to 24 significant bits; above, the nearest multiple of the last place, and a tie goes to the
even one. -/
def Obligations.Binary32RoundsToNearestEven : Prop :=
  ∀ v : Word32,
    (v.toNat < 2 ^ 24 → floatValue .binary32 (q16ToFloat .binary32 v) = (v.toNat : ℚ) / 65536) ∧
    (2 ^ 24 ≤ v.toNat → ∃ m : Nat,
      floatValue .binary32 (q16ToFloat .binary32 v) = ((m * 2 ^ (v.toNat.log2 - 23) : ℕ) : ℚ) / 65536 ∧
      2 * v.toNat ≤ (2 * m + 1) * 2 ^ (v.toNat.log2 - 23) ∧
      2 * m * 2 ^ (v.toNat.log2 - 23) ≤ 2 * v.toNat + 2 ^ (v.toNat.log2 - 23) ∧
      ((2 * v.toNat = (2 * m + 1) * 2 ^ (v.toNat.log2 - 23) ∨
          2 * m * 2 ^ (v.toNat.log2 - 23) = 2 * v.toNat + 2 ^ (v.toNat.log2 - 23)) → m % 2 = 0))

/-- R145: the sign is 0 and no result is subnormal, infinite or a NaN: the exponent field is within the rule's bounds. -/
def Obligations.ScalingGivesZeroOrNormal : Prop :=
  ∀ v : Word32, v ≠ 0#32 →
    (1007 ≤ (q16ToFloat .binary64 v).toNat / 2 ^ 52 ∧ (q16ToFloat .binary64 v).toNat / 2 ^ 52 ≤ 1038) ∧
    (111 ≤ (q16ToFloat .binary32 v).toNat / 2 ^ 23 ∧ (q16ToFloat .binary32 v).toNat / 2 ^ 23 ≤ 143)

/-- R146: (a) the scaling is monotonic in both formats, strictly in BINARY64; (b) doubling the integer doubles the number
exactly in both; (c) in BINARY64 the integer is recovered; (d) its integer part is the high half of `value`, its fraction
the low half over 65536. -/
def Obligations.ScalingLaws : Prop :=
  (∀ (f : LenFmt) (v w : Word32), v.toNat ≤ w.toNat →
    floatValue f (q16ToFloat f v) ≤ floatValue f (q16ToFloat f w)) ∧
  (∀ v w : Word32, v.toNat < w.toNat →
    floatValue .binary64 (q16ToFloat .binary64 v) < floatValue .binary64 (q16ToFloat .binary64 w)) ∧
  (∀ v w : Word32, q16ToFloat .binary64 v = q16ToFloat .binary64 w → v = w) ∧
  (∀ (f : LenFmt) (v : Word32), v.toNat < 2 ^ 31 →
    floatValue f (q16ToFloat f (2 * v)) = 2 * floatValue f (q16ToFloat f v)) ∧
  (∀ v : Word32, floatValue .binary64 (q16ToFloat .binary64 v) * 65536 = v.toNat) ∧
  (∀ v : Word32, floatValue .binary64 (q16ToFloat .binary64 v) =
    ((v.toNat / 65536 : ℕ) : ℚ) + ((v.toNat % 65536 : ℕ) : ℚ) / 65536)
end

