-- ==== Sys2Proof/Laws/Decode.lean ====
section
/-! SUPPORT. The laws of the byte order helpers and of the decoder on a word laid out by its number. -/

namespace Sys2Proof

@[simp] theorem beBytes_length (n v : Nat) : (beBytes n v).length = n := by
  induction n with
  | zero => rfl
  | succ n ih => simp [beBytes, ih]

theorem beNat_foldl (bs : List Byte) (acc : Nat) :
    bs.foldl (fun acc b => acc * 256 + b.toNat) acc = acc * 256 ^ bs.length + beNat bs := by
  induction bs generalizing acc with
  | nil => simp [beNat]
  | cons b bs ih =>
    rw [List.foldl_cons, ih, show beNat (b :: bs) = (0 * 256 + b.toNat) * 256 ^ bs.length + beNat bs from ih _,
      List.length_cons, pow_succ]
    ring

theorem beNat_cons (b : Byte) (bs : List Byte) : beNat (b :: bs) = b.toNat * 256 ^ bs.length + beNat bs := by
  rw [beNat, List.foldl_cons, beNat_foldl]
  simp

/-- The bytes of a number spell its low part. -/
theorem beNat_beBytes (n v : Nat) : beNat (beBytes n v) = v % 256 ^ n := by
  induction n with
  | zero => simp [beBytes, beNat, Nat.mod_one]
  | succ n ih =>
    rw [beBytes, beNat_cons, ih, beBytes_length, BitVec.toNat_ofNat, pow_succ 256 n, Nat.mod_mul, Nat.mul_comm,
      Nat.add_comm]

/-- A number below `256 ^ n` is spelled by its `n` bytes. -/
theorem beNat_lt (bs : List Byte) : beNat bs < 256 ^ bs.length := by
  induction bs with
  | nil => simp [beNat]
  | cons b bs ih =>
    have hb : b.toNat < 256 := b.isLt
    rw [beNat_cons, List.length_cons, pow_succ]
    nlinarith

theorem beBytes_beNat (bs : List Byte) : beBytes bs.length (beNat bs) = bs := by
  induction bs with
  | nil => rfl
  | cons b bs ih =>
    have hlt := beNat_lt bs
    have hb : b.toNat < 2 ^ 8 := b.isLt
    have hdiv : beNat (b :: bs) / 256 ^ bs.length = b.toNat := by
      rw [beNat_cons, Nat.mul_comm, Nat.mul_add_div (by positivity), Nat.div_eq_of_lt hlt, Nat.add_zero]
    have hlow : ∀ n v w : Nat, v % 256 ^ n = w % 256 ^ n → beBytes n v = beBytes n w := by
      intro n
      induction n with
      | zero => intros; rfl
      | succ n ihn =>
        intro v w h
        have h1 : v % 256 ^ n = w % 256 ^ n := by
          have := congrArg (· % 256 ^ n) h
          simpa [pow_succ, Nat.mod_mul_right_mod] using this
        have h2 : v / 256 ^ n % 256 = w / 256 ^ n % 256 := by
          have := congrArg (· / 256 ^ n) h
          simpa [pow_succ, Nat.mod_mul_right_div_self] using this
        rw [beBytes, beBytes, ihn v w h1]
        congr 1
        exact BitVec.eq_of_toNat_eq (by simpa using h2)
    rw [List.length_cons, beBytes, hdiv, BitVec.ofNat_toNat, BitVec.setWidth_eq,
      hlow bs.length (beNat (b :: bs)) (beNat bs) (by rw [beNat_cons]; simp [Nat.add_mod]), ih]

/-- The request as R71 writes it. -/
@[simp] theorem reqWord_eq : reqWord = 0x010300000002C40B := rfl

/-- The marker as the high field of R73's match. -/
@[simp] theorem markerField_eq : markerField = 0x010304 := rfl

/-- R71's match. -/
theorem decodeNumber_req (v : Nat) :
    decodeNumber .req v = if v = 0x010300000002C40B then .ok .req else .error .notRequest := by
  rw [decodeNumber, reqWord_eq]

/-- R73's match. -/
theorem decodeNumber_resp (v : Nat) :
    decodeNumber .resp v = if v / 2 ^ 32 = 0x010304 then .ok (.resp (BitVec.ofNat 32 v)) else .error .notMarker := by
  rw [decodeNumber, markerField_eq]
  rfl

/-- A response word, R73. -/
theorem encodeNumber_resp (f : LenFmt) (v : Word32) : encodeNumber f (.resp v) = 0x010304 * 2 ^ 32 + v.toNat := by
  rw [encodeNumber, markerField_eq]
  rfl

/-- `REQ_LEN` is the length of `REQ_CMD`, R9. -/
theorem reqCmd_length : Config.reqCmd.length = Config.reqLen := rfl

/-- A format's words fit its bytes. -/
theorem Format.bits_le (f : Format) : 2 ^ f.bits ≤ 256 ^ f.byteLen := by
  rcases f with _ | _ | (_ | _) | _ | _ | _ <;> decide

/-- Decoding the bytes of a number that fits the format's word. -/
theorem decode_beBytes (fmt : Format) {v : Nat} (h : v < 2 ^ fmt.bits) :
    decode ⟨fmt, beBytes fmt.byteLen v⟩ = decodeNumber fmt v := by
  have hv : v % 256 ^ fmt.byteLen = v := Nat.mod_eq_of_lt (lt_of_lt_of_le h fmt.bits_le)
  simp [decode, beNat_beBytes, hv, h]

end Sys2Proof
end

