-- ==== Sys2Proof/Laws/Memory.lean ====
section
/-! SUPPORT. The laws of the RawBuffer: read after write, and the canonical form kept. -/

namespace Sys2Proof.Machine.Memory

/-- Below the first address nothing is listed. -/
theorem get_of_lt {m : Memory} {k : Nat} (h : ∀ c ∈ m, k < c.1) : get m k = unlisted := by
  induction m with
  | nil => rfl
  | cons c rest ih =>
    obtain ⟨a, b⟩ := c
    have ha : k < a := h (a, b) (by simp)
    rw [get, if_neg (by omega)]
    exact ih fun c hc => h c (List.mem_cons_of_mem _ hc)

theorem wf_tail {c : Host.Cell} {m : Memory} (h : wf (c :: m)) : wf m :=
  ⟨(List.pairwise_cons.1 h.1).2, fun d hd => h.2 d (List.mem_cons_of_mem _ hd)⟩

theorem lt_of_wf {c : Host.Cell} {m : Memory} (h : wf (c :: m)) : ∀ d ∈ m, c.1 < d.1 :=
  (List.pairwise_cons.1 h.1).1

/-- A read after a write: the byte written at its index, every other index as before. -/
theorem get_put {m : Memory} (h : wf m) (k : Nat) (v : Byte) (j : Nat) :
    get (put m k v) j = if j = k then v else get m j := by
  induction m with
  | nil =>
    simp only [put]
    split_ifs with hv hj hj <;> simp_all [get, eq_comm]
  | cons c rest ih =>
    obtain ⟨a, b⟩ := c
    have hlt := lt_of_wf h
    simp only at hlt
    rcases lt_trichotomy k a with hka | hka | hka
    · have hk : get ((a, b) :: rest) k = unlisted :=
        get_of_lt fun d hd => by
          rcases List.mem_cons.1 hd with rfl | hd
          · exact hka
          · exact lt_trans hka (hlt d hd)
      simp only [put, if_pos hka]
      split_ifs with hv hj hj
      · rw [hj, hk, hv]
      · rfl
      · rw [get, if_pos hj.symm]
      · rw [get, if_neg (Ne.symm hj)]
    · subst hka
      have hk : get rest k = unlisted := get_of_lt hlt
      simp only [put, lt_irrefl, if_false, if_true]
      split_ifs with hv hj hj
      · rw [hj, hk, hv]
      · rw [get, if_neg (Ne.symm hj)]
      · rw [get, if_pos hj.symm]
      · rw [get, get, if_neg (Ne.symm hj), if_neg (Ne.symm hj)]
    · simp only [put, if_neg (not_lt.2 hka.le), if_neg hka.ne']
      simp only [get, ih (wf_tail h)]
      split_ifs <;> first | rfl | omega

/-- The addresses listed after a write. -/
theorem mem_put {m : Memory} {k : Nat} {v : Byte} {c : Host.Cell} (hc : c ∈ put m k v) :
    c ∈ m ∨ c = (k, v) ∧ v ≠ unlisted := by
  induction m with
  | nil =>
    simp only [put] at hc
    split_ifs at hc with hv
    · simp at hc
    · simp_all
  | cons d rest ih =>
    obtain ⟨a, b⟩ := d
    simp only [put] at hc
    split_ifs at hc with h1 h2 h3 h4
    · exact .inl hc
    · rcases List.mem_cons.1 hc with rfl | hc
      · exact .inr ⟨rfl, h2⟩
      · exact .inl hc
    · exact .inl (List.mem_cons_of_mem _ hc)
    · rcases List.mem_cons.1 hc with rfl | hc
      · exact .inr ⟨rfl, h4⟩
      · exact .inl (List.mem_cons_of_mem _ hc)
    · rcases List.mem_cons.1 hc with rfl | hc
      · exact .inl (by simp)
      · rcases ih hc with h | h
        · exact .inl (List.mem_cons_of_mem _ h)
        · exact .inr h

/-- A write keeps the canonical form. -/
theorem put_wf {m : Memory} (h : wf m) (k : Nat) (v : Byte) : wf (put m k v) := by
  refine ⟨?_, fun c hc => ?_⟩
  · induction m with
    | nil => simp only [put]; split_ifs <;> simp
    | cons d rest ih =>
      obtain ⟨a, b⟩ := d
      have hlt := lt_of_wf h
      simp only at hlt
      simp only [put]
      split_ifs with h1 h2 h3 h4
      · exact h.1
      · refine List.pairwise_cons.2 ⟨fun d hd => ?_, h.1⟩
        rcases List.mem_cons.1 hd with rfl | hd
        · exact h1
        · exact lt_trans h1 (hlt d hd)
      · exact (wf_tail h).1
      · exact List.pairwise_cons.2 ⟨fun d hd => h3 ▸ hlt d hd, (wf_tail h).1⟩
      · refine List.pairwise_cons.2 ⟨fun d hd => ?_, ih (wf_tail h)⟩
        rcases mem_put hd with hd | ⟨rfl, -⟩
        · exact hlt d hd
        · show a < k
          omega
  · rcases mem_put hc with hc | ⟨rfl, hv⟩
    · exact h.2 c hc
    · exact hv

theorem write_wf {m : Memory} (h : wf m) (k : Nat) (bs : List Byte) : wf (write m k bs) := by
  induction bs generalizing m k with
  | nil => exact h
  | cons b bs ih => exact ih (put_wf h k b) (k + 1)

/-- A read after the write of a list of bytes. -/
theorem get_write {m : Memory} (h : wf m) (k : Nat) (bs : List Byte) (j : Nat) :
    get (write m k bs) j = if k ≤ j ∧ j < k + bs.length then bs.getD (j - k) 0#8 else get m j := by
  induction bs generalizing m k with
  | nil => rw [write, if_neg (by simp)]
  | cons b bs ih =>
    rw [write, ih (put_wf h k b), get_put h]
    rcases lt_trichotomy j k with hj | hj | hj
    · rw [if_neg (by omega), if_neg (by omega), if_neg (by omega)]
    · subst hj; simp
    · obtain ⟨d, rfl⟩ : ∃ d, j = k + 1 + d := ⟨j - (k + 1), by omega⟩
      have h1 : k + 1 + d - k = d + 1 := by omega
      have h2 : k + 1 + d - (k + 1) = d := by omega
      have h3 : k + 1 + d ≠ k := by omega
      simp only [List.length_cons, h1, h2, h3, if_false, List.getD_cons_succ]
      congr 1
      simp only [eq_iff_iff]
      omega

/-- The addresses listed after a write of a list stay below a bound the write stays below. -/
theorem write_lt {m : Memory} {n : Nat} (h : ∀ c ∈ m, c.1 < n) (k : Nat) (bs : List Byte) (hb : k + bs.length ≤ n) :
    ∀ c ∈ write m k bs, c.1 < n := by
  induction bs generalizing m k with
  | nil => exact h
  | cons b bs ih =>
    refine ih (fun c hc => ?_) (k + 1) (by simp at hb; omega)
    rcases mem_put hc with hc | ⟨rfl, -⟩
    · exact h c hc
    · simp at hb ⊢; omega

end Sys2Proof.Machine.Memory
end

