-- ==== Sys2Proof/Laws/State.lean ====
section
/-! SUPPORT. What each shared operation does to each field of the state. -/

namespace Sys2Proof.Machine

@[simp] theorem chWrite_mode (bs : List Byte) (s : State) : (chWrite bs s).mode = s.mode := rfl
@[simp] theorem chWrite_cnt (bs : List Byte) (s : State) : (chWrite bs s).cnt = s.cnt := rfl
@[simp] theorem chWrite_rawbuf (bs : List Byte) (s : State) : (chWrite bs s).rawbuf = s.rawbuf := rfl
@[simp] theorem chWrite_rawlen (bs : List Byte) (s : State) : (chWrite bs s).rawlen = s.rawlen := rfl
@[simp] theorem chWrite_idx (bs : List Byte) (s : State) : (chWrite bs s).idx = s.idx := rfl
@[simp] theorem chWrite_value (bs : List Byte) (s : State) : (chWrite bs s).value = s.value := rfl
@[simp] theorem chWrite_reading (bs : List Byte) (s : State) : (chWrite bs s).reading = s.reading := rfl
@[simp] theorem chWrite_decOk (bs : List Byte) (s : State) : (chWrite bs s).decOk = s.decOk := rfl
@[simp] theorem chWrite_syncFound (bs : List Byte) (s : State) : (chWrite bs s).syncFound = s.syncFound := rfl
@[simp] theorem chWrite_cfg (bs : List Byte) (s : State) : (chWrite bs s).cfg = s.cfg := rfl
@[simp] theorem chWrite_tin (bs : List Byte) (s : State) : (chWrite bs s).tin = s.tin := rfl
@[simp] theorem chWrite_bin (bs : List Byte) (s : State) : (chWrite bs s).bin = s.bin := rfl
@[simp] theorem chWrite_len (bs : List Byte) (s : State) : (chWrite bs s).len = s.len := rfl
@[simp] theorem chWrite_out (bs : List Byte) (s : State) : (chWrite bs s).out = { s.out with tx := some bs } := rfl
@[simp] theorem chWrite_env (bs : List Byte) (s : State) : (chWrite bs s).env = { s.env with sent := s.env.sent ++ bs } := rfl
@[simp] theorem chWrite_seq (bs : List Byte) (s : State) : (chWrite bs s).seq = s.seq := rfl

@[simp] theorem chRead_mode (n : Nat) (s : State) : (chRead n s).mode = s.mode := rfl
@[simp] theorem chRead_cnt (n : Nat) (s : State) : (chRead n s).cnt = s.cnt := rfl
@[simp] theorem chRead_rawbuf (n : Nat) (s : State) : (chRead n s).rawbuf = s.rawbuf := rfl
@[simp] theorem chRead_rawlen (n : Nat) (s : State) : (chRead n s).rawlen = s.rawlen := rfl
@[simp] theorem chRead_idx (n : Nat) (s : State) : (chRead n s).idx = s.idx := rfl
@[simp] theorem chRead_value (n : Nat) (s : State) : (chRead n s).value = s.value := rfl
@[simp] theorem chRead_reading (n : Nat) (s : State) : (chRead n s).reading = s.reading := rfl
@[simp] theorem chRead_decOk (n : Nat) (s : State) : (chRead n s).decOk = s.decOk := rfl
@[simp] theorem chRead_syncFound (n : Nat) (s : State) : (chRead n s).syncFound = s.syncFound := rfl
@[simp] theorem chRead_cfg (n : Nat) (s : State) : (chRead n s).cfg = s.cfg := rfl
@[simp] theorem chRead_tin (n : Nat) (s : State) : (chRead n s).tin = s.tin := rfl
@[simp] theorem chRead_bin (n : Nat) (s : State) : (chRead n s).bin = s.bin := rfl
@[simp] theorem chRead_len (n : Nat) (s : State) : (chRead n s).len = s.len := rfl
@[simp] theorem chRead_out (n : Nat) (s : State) : (chRead n s).out = { s.out with rdReq := some n } := rfl
@[simp] theorem chRead_env (n : Nat) (s : State) : (chRead n s).env = { s.env with rxq := s.env.rxq.drop (chAnswer n s).length } := rfl
@[simp] theorem chRead_seq (n : Nat) (s : State) : (chRead n s).seq = s.seq := rfl

@[simp] theorem publish_mode (r : Reading) (s : State) : (publish r s).mode = s.mode := rfl
@[simp] theorem publish_cnt (r : Reading) (s : State) : (publish r s).cnt = s.cnt := rfl
@[simp] theorem publish_rawbuf (r : Reading) (s : State) : (publish r s).rawbuf = s.rawbuf := rfl
@[simp] theorem publish_rawlen (r : Reading) (s : State) : (publish r s).rawlen = s.rawlen := rfl
@[simp] theorem publish_idx (r : Reading) (s : State) : (publish r s).idx = s.idx := rfl
@[simp] theorem publish_value (r : Reading) (s : State) : (publish r s).value = s.value := rfl
@[simp] theorem publish_reading (r : Reading) (s : State) : (publish r s).reading = s.reading := rfl
@[simp] theorem publish_decOk (r : Reading) (s : State) : (publish r s).decOk = s.decOk := rfl
@[simp] theorem publish_syncFound (r : Reading) (s : State) : (publish r s).syncFound = s.syncFound := rfl
@[simp] theorem publish_cfg (r : Reading) (s : State) : (publish r s).cfg = s.cfg := rfl
@[simp] theorem publish_tin (r : Reading) (s : State) : (publish r s).tin = s.tin := rfl
@[simp] theorem publish_bin (r : Reading) (s : State) : (publish r s).bin = s.bin := rfl
@[simp] theorem publish_len (r : Reading) (s : State) : (publish r s).len = s.len := rfl
@[simp] theorem publish_out (r : Reading) (s : State) : (publish r s).out = { s.out with pub := some r } := rfl
@[simp] theorem publish_env (r : Reading) (s : State) : (publish r s).env = { s.env with sink := s.env.sink ++ [r] } := rfl
@[simp] theorem publish_seq (r : Reading) (s : State) : (publish r s).seq = s.seq := rfl

@[simp] theorem arriveBytes_mode (bs : List Byte) (s : State) : (arriveBytes bs s).mode = s.mode := rfl
@[simp] theorem arriveBytes_cnt (bs : List Byte) (s : State) : (arriveBytes bs s).cnt = s.cnt := rfl
@[simp] theorem arriveBytes_rawbuf (bs : List Byte) (s : State) : (arriveBytes bs s).rawbuf = s.rawbuf := rfl
@[simp] theorem arriveBytes_rawlen (bs : List Byte) (s : State) : (arriveBytes bs s).rawlen = s.rawlen := rfl
@[simp] theorem arriveBytes_idx (bs : List Byte) (s : State) : (arriveBytes bs s).idx = s.idx := rfl
@[simp] theorem arriveBytes_value (bs : List Byte) (s : State) : (arriveBytes bs s).value = s.value := rfl
@[simp] theorem arriveBytes_reading (bs : List Byte) (s : State) : (arriveBytes bs s).reading = s.reading := rfl
@[simp] theorem arriveBytes_decOk (bs : List Byte) (s : State) : (arriveBytes bs s).decOk = s.decOk := rfl
@[simp] theorem arriveBytes_syncFound (bs : List Byte) (s : State) : (arriveBytes bs s).syncFound = s.syncFound := rfl
@[simp] theorem arriveBytes_cfg (bs : List Byte) (s : State) : (arriveBytes bs s).cfg = s.cfg := rfl
@[simp] theorem arriveBytes_tin (bs : List Byte) (s : State) : (arriveBytes bs s).tin = s.tin := rfl
@[simp] theorem arriveBytes_bin (bs : List Byte) (s : State) : (arriveBytes bs s).bin = s.bin := rfl
@[simp] theorem arriveBytes_len (bs : List Byte) (s : State) : (arriveBytes bs s).len = s.len := rfl
@[simp] theorem arriveBytes_out (bs : List Byte) (s : State) : (arriveBytes bs s).out = s.out := rfl
@[simp] theorem arriveBytes_env (bs : List Byte) (s : State) : (arriveBytes bs s).env = { s.env with rxq := s.env.rxq ++ bs } := rfl
@[simp] theorem arriveBytes_seq (bs : List Byte) (s : State) : (arriveBytes bs s).seq = s.seq := rfl

@[simp] theorem sendRequest_mode (s : State) : (sendRequest s).mode = s.mode := rfl
@[simp] theorem sendRequest_cnt (s : State) : (sendRequest s).cnt = s.cnt := rfl
@[simp] theorem sendRequest_rawbuf (s : State) : (sendRequest s).rawbuf = s.rawbuf := rfl
@[simp] theorem sendRequest_rawlen (s : State) : (sendRequest s).rawlen = s.rawlen := rfl
@[simp] theorem sendRequest_idx (s : State) : (sendRequest s).idx = s.idx := rfl
@[simp] theorem sendRequest_value (s : State) : (sendRequest s).value = s.value := rfl
@[simp] theorem sendRequest_reading (s : State) : (sendRequest s).reading = s.reading := rfl
@[simp] theorem sendRequest_decOk (s : State) : (sendRequest s).decOk = s.decOk := rfl
@[simp] theorem sendRequest_syncFound (s : State) : (sendRequest s).syncFound = s.syncFound := rfl
@[simp] theorem sendRequest_cfg (s : State) : (sendRequest s).cfg = s.cfg := rfl
@[simp] theorem sendRequest_tin (s : State) : (sendRequest s).tin = s.tin := rfl
@[simp] theorem sendRequest_bin (s : State) : (sendRequest s).bin = s.bin := rfl
@[simp] theorem sendRequest_len (s : State) : (sendRequest s).len = s.len := rfl
@[simp] theorem sendRequest_out (s : State) : (sendRequest s).out = { s.out with tx := some Config.reqCmd } := rfl
@[simp] theorem sendRequest_env (s : State) : (sendRequest s).env = { s.env with sent := s.env.sent ++ Config.reqCmd } := rfl
@[simp] theorem sendRequest_seq (s : State) : (sendRequest s).seq = s.seq := rfl

@[simp] theorem readBuffer_mode (s : State) : (readBuffer s).mode = s.mode := rfl
@[simp] theorem readBuffer_cnt (s : State) : (readBuffer s).cnt = s.cnt := rfl
@[simp] theorem readBuffer_rawbuf (s : State) : (readBuffer s).rawbuf = Memory.write s.rawbuf 0 (readBytes s) := rfl
@[simp] theorem readBuffer_rawlen (s : State) : (readBuffer s).rawlen = (readBytes s).length := rfl
@[simp] theorem readBuffer_idx (s : State) : (readBuffer s).idx = s.idx := rfl
@[simp] theorem readBuffer_value (s : State) : (readBuffer s).value = s.value := rfl
@[simp] theorem readBuffer_reading (s : State) : (readBuffer s).reading = s.reading := rfl
@[simp] theorem readBuffer_decOk (s : State) : (readBuffer s).decOk = s.decOk := rfl
@[simp] theorem readBuffer_syncFound (s : State) : (readBuffer s).syncFound = s.syncFound := rfl
@[simp] theorem readBuffer_cfg (s : State) : (readBuffer s).cfg = s.cfg := rfl
@[simp] theorem readBuffer_tin (s : State) : (readBuffer s).tin = s.tin := rfl
@[simp] theorem readBuffer_bin (s : State) : (readBuffer s).bin = s.bin := rfl
@[simp] theorem readBuffer_len (s : State) : (readBuffer s).len = s.len := rfl
@[simp] theorem readBuffer_out (s : State) : (readBuffer s).out = { s.out with rdReq := some (readSize s) } := rfl
@[simp] theorem readBuffer_env (s : State) : (readBuffer s).env = { s.env with rxq := s.env.rxq.drop (readBytes s).length } := rfl
@[simp] theorem readBuffer_seq (s : State) : (readBuffer s).seq = s.seq := rfl

@[simp] theorem endTick_mode (l : Label) (s : State) : (endTick l s).mode = s.mode := rfl
@[simp] theorem endTick_cnt (l : Label) (s : State) : (endTick l s).cnt = nextCnt s.cnt := rfl
@[simp] theorem endTick_rawbuf (l : Label) (s : State) : (endTick l s).rawbuf = s.rawbuf := rfl
@[simp] theorem endTick_rawlen (l : Label) (s : State) : (endTick l s).rawlen = s.rawlen := rfl
@[simp] theorem endTick_idx (l : Label) (s : State) : (endTick l s).idx = s.idx := rfl
@[simp] theorem endTick_value (l : Label) (s : State) : (endTick l s).value = s.value := rfl
@[simp] theorem endTick_reading (l : Label) (s : State) : (endTick l s).reading = s.reading := rfl
@[simp] theorem endTick_decOk (l : Label) (s : State) : (endTick l s).decOk = s.decOk := rfl
@[simp] theorem endTick_syncFound (l : Label) (s : State) : (endTick l s).syncFound = s.syncFound := rfl
@[simp] theorem endTick_cfg (l : Label) (s : State) : (endTick l s).cfg = s.cfg := rfl
@[simp] theorem endTick_tin (l : Label) (s : State) : (endTick l s).tin = s.tin := rfl
@[simp] theorem endTick_bin (l : Label) (s : State) : (endTick l s).bin = s.bin := rfl
@[simp] theorem endTick_len (l : Label) (s : State) : (endTick l s).len = s.len := rfl
@[simp] theorem endTick_out (l : Label) (s : State) : (endTick l s).out = { s.out with outcome := some l } := rfl
@[simp] theorem endTick_env (l : Label) (s : State) : (endTick l s).env = s.env := rfl
@[simp] theorem endTick_seq (l : Label) (s : State) : (endTick l s).seq = s.seq := rfl

@[simp] theorem raiseEvent_mode (l : Label) (m : Mode) (s : State) : (raiseEvent l m s).mode = m := rfl
@[simp] theorem raiseEvent_cnt (l : Label) (m : Mode) (s : State) : (raiseEvent l m s).cnt = s.cnt := rfl
@[simp] theorem raiseEvent_rawbuf (l : Label) (m : Mode) (s : State) : (raiseEvent l m s).rawbuf = s.rawbuf := rfl
@[simp] theorem raiseEvent_rawlen (l : Label) (m : Mode) (s : State) : (raiseEvent l m s).rawlen = s.rawlen := rfl
@[simp] theorem raiseEvent_idx (l : Label) (m : Mode) (s : State) : (raiseEvent l m s).idx = s.idx := rfl
@[simp] theorem raiseEvent_value (l : Label) (m : Mode) (s : State) : (raiseEvent l m s).value = s.value := rfl
@[simp] theorem raiseEvent_reading (l : Label) (m : Mode) (s : State) : (raiseEvent l m s).reading = s.reading := rfl
@[simp] theorem raiseEvent_decOk (l : Label) (m : Mode) (s : State) : (raiseEvent l m s).decOk = s.decOk := rfl
@[simp] theorem raiseEvent_syncFound (l : Label) (m : Mode) (s : State) : (raiseEvent l m s).syncFound = s.syncFound := rfl
@[simp] theorem raiseEvent_cfg (l : Label) (m : Mode) (s : State) : (raiseEvent l m s).cfg = s.cfg := rfl
@[simp] theorem raiseEvent_tin (l : Label) (m : Mode) (s : State) : (raiseEvent l m s).tin = s.tin := rfl
@[simp] theorem raiseEvent_bin (l : Label) (m : Mode) (s : State) : (raiseEvent l m s).bin = s.bin := rfl
@[simp] theorem raiseEvent_len (l : Label) (m : Mode) (s : State) : (raiseEvent l m s).len = s.len := rfl
@[simp] theorem raiseEvent_out (l : Label) (m : Mode) (s : State) : (raiseEvent l m s).out = { s.out with outcome := some l } := rfl
@[simp] theorem raiseEvent_env (l : Label) (m : Mode) (s : State) : (raiseEvent l m s).env = s.env := rfl
@[simp] theorem raiseEvent_seq (l : Label) (m : Mode) (s : State) : (raiseEvent l m s).seq = s.seq := rfl

@[simp] theorem State.afterInput_mode (s : State) (rest : List Input) : (s.afterInput rest).mode = s.mode := rfl
@[simp] theorem State.afterInput_cnt (s : State) (rest : List Input) : (s.afterInput rest).cnt = s.cnt := rfl
@[simp] theorem State.afterInput_rawbuf (s : State) (rest : List Input) : (s.afterInput rest).rawbuf = s.rawbuf := rfl
@[simp] theorem State.afterInput_rawlen (s : State) (rest : List Input) : (s.afterInput rest).rawlen = s.rawlen := rfl
@[simp] theorem State.afterInput_idx (s : State) (rest : List Input) : (s.afterInput rest).idx = s.idx := rfl
@[simp] theorem State.afterInput_value (s : State) (rest : List Input) : (s.afterInput rest).value = s.value := rfl
@[simp] theorem State.afterInput_reading (s : State) (rest : List Input) : (s.afterInput rest).reading = s.reading := rfl
@[simp] theorem State.afterInput_decOk (s : State) (rest : List Input) : (s.afterInput rest).decOk = s.decOk := rfl
@[simp] theorem State.afterInput_syncFound (s : State) (rest : List Input) : (s.afterInput rest).syncFound = s.syncFound := rfl
@[simp] theorem State.afterInput_cfg (s : State) (rest : List Input) : (s.afterInput rest).cfg = s.cfg := rfl
@[simp] theorem State.afterInput_tin (s : State) (rest : List Input) : (s.afterInput rest).tin = s.tin := rfl
@[simp] theorem State.afterInput_bin (s : State) (rest : List Input) : (s.afterInput rest).bin = s.bin := rfl
@[simp] theorem State.afterInput_len (s : State) (rest : List Input) : (s.afterInput rest).len = s.len := rfl
@[simp] theorem State.afterInput_out (s : State) (rest : List Input) : (s.afterInput rest).out = TickOut.none := rfl
@[simp] theorem State.afterInput_env (s : State) (rest : List Input) : (s.afterInput rest).env = { s.env with inputs := rest } := rfl
@[simp] theorem State.afterInput_seq (s : State) (rest : List Input) : (s.afterInput rest).seq = s.seq := rfl

@[simp] theorem State.afterSeq_mode (s : State) : (s.afterSeq).mode = s.mode := rfl
@[simp] theorem State.afterSeq_cnt (s : State) : (s.afterSeq).cnt = s.cnt := rfl
@[simp] theorem State.afterSeq_rawbuf (s : State) : (s.afterSeq).rawbuf = s.rawbuf := rfl
@[simp] theorem State.afterSeq_rawlen (s : State) : (s.afterSeq).rawlen = s.rawlen := rfl
@[simp] theorem State.afterSeq_idx (s : State) : (s.afterSeq).idx = s.idx := rfl
@[simp] theorem State.afterSeq_value (s : State) : (s.afterSeq).value = s.value := rfl
@[simp] theorem State.afterSeq_reading (s : State) : (s.afterSeq).reading = s.reading := rfl
@[simp] theorem State.afterSeq_decOk (s : State) : (s.afterSeq).decOk = s.decOk := rfl
@[simp] theorem State.afterSeq_syncFound (s : State) : (s.afterSeq).syncFound = s.syncFound := rfl
@[simp] theorem State.afterSeq_cfg (s : State) : (s.afterSeq).cfg = s.cfg := rfl
@[simp] theorem State.afterSeq_tin (s : State) : (s.afterSeq).tin = s.tin := rfl
@[simp] theorem State.afterSeq_bin (s : State) : (s.afterSeq).bin = s.bin := rfl
@[simp] theorem State.afterSeq_len (s : State) : (s.afterSeq).len = s.len := rfl
@[simp] theorem State.afterSeq_out (s : State) : (s.afterSeq).out = TickOut.none := rfl
@[simp] theorem State.afterSeq_env (s : State) : (s.afterSeq).env = s.env := rfl
@[simp] theorem State.afterSeq_seq (s : State) : (s.afterSeq).seq = none := rfl

/-! `applyReset`: the block's elements as after reset, the parameters and the environment kept. -/

@[simp] theorem applyReset_mode (s : State) : (applyReset s).mode = State.reset.mode := rfl
@[simp] theorem applyReset_cnt (s : State) : (applyReset s).cnt = State.reset.cnt := rfl
@[simp] theorem applyReset_rawbuf (s : State) : (applyReset s).rawbuf = State.reset.rawbuf := rfl
@[simp] theorem applyReset_rawlen (s : State) : (applyReset s).rawlen = State.reset.rawlen := rfl
@[simp] theorem applyReset_idx (s : State) : (applyReset s).idx = State.reset.idx := rfl
@[simp] theorem applyReset_value (s : State) : (applyReset s).value = State.reset.value := rfl
@[simp] theorem applyReset_reading (s : State) : (applyReset s).reading = State.reset.reading := rfl
@[simp] theorem applyReset_decOk (s : State) : (applyReset s).decOk = State.reset.decOk := rfl
@[simp] theorem applyReset_syncFound (s : State) : (applyReset s).syncFound = State.reset.syncFound := rfl
@[simp] theorem applyReset_cfg (s : State) : (applyReset s).cfg = s.cfg := rfl
@[simp] theorem applyReset_tin (s : State) : (applyReset s).tin = State.reset.tin := rfl
@[simp] theorem applyReset_bin (s : State) : (applyReset s).bin = State.reset.bin := rfl
@[simp] theorem applyReset_len (s : State) : (applyReset s).len = State.reset.len := rfl
@[simp] theorem applyReset_out (s : State) : (applyReset s).out = State.reset.out := rfl
@[simp] theorem applyReset_env (s : State) : (applyReset s).env = s.env := rfl
@[simp] theorem applyReset_seq (s : State) : (applyReset s).seq = State.reset.seq := rfl

/-! `tickState`: a tick's record sampled, the outputs cleared, the tick taken off the inputs. -/

@[simp] theorem State.tickState_mode (s : State) (t : TickIn) (rest : List Input) : (s.tickState t rest).mode = s.mode := rfl
@[simp] theorem State.tickState_cnt (s : State) (t : TickIn) (rest : List Input) : (s.tickState t rest).cnt = s.cnt := rfl
@[simp] theorem State.tickState_rawbuf (s : State) (t : TickIn) (rest : List Input) : (s.tickState t rest).rawbuf = s.rawbuf := rfl
@[simp] theorem State.tickState_rawlen (s : State) (t : TickIn) (rest : List Input) : (s.tickState t rest).rawlen = s.rawlen := rfl
@[simp] theorem State.tickState_idx (s : State) (t : TickIn) (rest : List Input) : (s.tickState t rest).idx = s.idx := rfl
@[simp] theorem State.tickState_value (s : State) (t : TickIn) (rest : List Input) : (s.tickState t rest).value = s.value := rfl
@[simp] theorem State.tickState_reading (s : State) (t : TickIn) (rest : List Input) : (s.tickState t rest).reading = s.reading := rfl
@[simp] theorem State.tickState_decOk (s : State) (t : TickIn) (rest : List Input) : (s.tickState t rest).decOk = s.decOk := rfl
@[simp] theorem State.tickState_syncFound (s : State) (t : TickIn) (rest : List Input) : (s.tickState t rest).syncFound = s.syncFound := rfl
@[simp] theorem State.tickState_cfg (s : State) (t : TickIn) (rest : List Input) : (s.tickState t rest).cfg = s.cfg := rfl
@[simp] theorem State.tickState_bin (s : State) (t : TickIn) (rest : List Input) : (s.tickState t rest).bin = s.bin := rfl
@[simp] theorem State.tickState_len (s : State) (t : TickIn) (rest : List Input) : (s.tickState t rest).len = s.len := rfl
@[simp] theorem State.tickState_seq (s : State) (t : TickIn) (rest : List Input) : (s.tickState t rest).seq = s.seq := rfl
@[simp] theorem State.tickState_tin (s : State) (t : TickIn) (rest : List Input) : (s.tickState t rest).tin = t := rfl
@[simp] theorem State.tickState_out (s : State) (t : TickIn) (rest : List Input) : (s.tickState t rest).out = TickOut.none := rfl
@[simp] theorem State.tickState_env (s : State) (t : TickIn) (rest : List Input) : (s.tickState t rest).env = { s.env with inputs := rest } := rfl

/-! `pulseClosed`, and `resetInTick`, which keeps the outputs the tick has issued. -/

@[simp] theorem pulseClosed_mode (s : State) : (pulseClosed s).mode = s.mode := rfl
@[simp] theorem pulseClosed_cnt (s : State) : (pulseClosed s).cnt = s.cnt := rfl
@[simp] theorem pulseClosed_rawbuf (s : State) : (pulseClosed s).rawbuf = s.rawbuf := rfl
@[simp] theorem pulseClosed_rawlen (s : State) : (pulseClosed s).rawlen = s.rawlen := rfl
@[simp] theorem pulseClosed_idx (s : State) : (pulseClosed s).idx = s.idx := rfl
@[simp] theorem pulseClosed_value (s : State) : (pulseClosed s).value = s.value := rfl
@[simp] theorem pulseClosed_reading (s : State) : (pulseClosed s).reading = s.reading := rfl
@[simp] theorem pulseClosed_decOk (s : State) : (pulseClosed s).decOk = s.decOk := rfl
@[simp] theorem pulseClosed_syncFound (s : State) : (pulseClosed s).syncFound = s.syncFound := rfl
@[simp] theorem pulseClosed_cfg (s : State) : (pulseClosed s).cfg = s.cfg := rfl
@[simp] theorem pulseClosed_tin (s : State) : (pulseClosed s).tin = s.tin := rfl
@[simp] theorem pulseClosed_bin (s : State) : (pulseClosed s).bin = s.bin := rfl
@[simp] theorem pulseClosed_len (s : State) : (pulseClosed s).len = s.len := rfl
@[simp] theorem pulseClosed_out (s : State) : (pulseClosed s).out = { s.out with closedEvt := true } := rfl
@[simp] theorem pulseClosed_env (s : State) : (pulseClosed s).env = s.env := rfl
@[simp] theorem pulseClosed_seq (s : State) : (pulseClosed s).seq = s.seq := rfl

@[simp] theorem resetInTick_mode (s : State) : (resetInTick s).mode = State.reset.mode := rfl
@[simp] theorem resetInTick_cnt (s : State) : (resetInTick s).cnt = State.reset.cnt := rfl
@[simp] theorem resetInTick_rawbuf (s : State) : (resetInTick s).rawbuf = State.reset.rawbuf := rfl
@[simp] theorem resetInTick_rawlen (s : State) : (resetInTick s).rawlen = State.reset.rawlen := rfl
@[simp] theorem resetInTick_idx (s : State) : (resetInTick s).idx = State.reset.idx := rfl
@[simp] theorem resetInTick_value (s : State) : (resetInTick s).value = State.reset.value := rfl
@[simp] theorem resetInTick_reading (s : State) : (resetInTick s).reading = State.reset.reading := rfl
@[simp] theorem resetInTick_decOk (s : State) : (resetInTick s).decOk = State.reset.decOk := rfl
@[simp] theorem resetInTick_syncFound (s : State) : (resetInTick s).syncFound = State.reset.syncFound := rfl
@[simp] theorem resetInTick_cfg (s : State) : (resetInTick s).cfg = s.cfg := rfl
@[simp] theorem resetInTick_tin (s : State) : (resetInTick s).tin = State.reset.tin := rfl
@[simp] theorem resetInTick_bin (s : State) : (resetInTick s).bin = State.reset.bin := rfl
@[simp] theorem resetInTick_len (s : State) : (resetInTick s).len = State.reset.len := rfl
@[simp] theorem resetInTick_out (s : State) : (resetInTick s).out = s.out := rfl
@[simp] theorem resetInTick_env (s : State) : (resetInTick s).env = s.env := rfl
@[simp] theorem resetInTick_seq (s : State) : (resetInTick s).seq = State.reset.seq := rfl

end Sys2Proof.Machine
end

