-- ==== Sys2Proof/Laws/Ops.lean ====
section
/-! SUPPORT. The laws of the shared operations: sequencing, the read of a tick, bounded reads, the counter. -/

namespace Sys2Proof.Machine

@[simp] theorem andThen_next (s : State) (f : State → Host.Outcome State Fault Refusal) :
    andThen (.next s) f = f s := rfl

/-- A sequence answers a next state exactly when its first part does and the rest does from there. -/
theorem andThen_eq_next {o : Host.Outcome State Fault Refusal} {f : State → Host.Outcome State Fault Refusal}
    {t : State} : andThen o f = .next t ↔ ∃ s, o = .next s ∧ f s = .next t := by
  cases o with
  | next s => exact ⟨fun h => ⟨s, rfl, h⟩, fun ⟨s', h, h'⟩ => by cases h; exact h'⟩
  | fault r => simp [andThen]
  | refused r => simp [andThen]

/-- The bytes a tick's read returns, in the tick record's own terms. -/
theorem readBytes_eq (s : State) : readBytes s = s.tin.rx.take (min s.tin.rxAvail 1024) := rfl

@[simp] theorem readBytes_sendRequest (s : State) : readBytes (sendRequest s) = readBytes s := rfl

@[simp] theorem readSize_sendRequest (s : State) : readSize (sendRequest s) = readSize s := rfl

/-- A read never returns more than the buffer holds, R68. -/
theorem readBytes_length_le (s : State) : (readBytes s).length ≤ 1024 := by
  rw [readBytes_eq, List.length_take]
  omega

/-- A `MemRead` inside the bounds returns the bytes in index order. -/
theorem memRead_eq_some {s : State} {k n : Nat} (h : k + n ≤ s.rawlen) (hc : s.rawlen ≤ 1024) :
    memRead s k n = some ((List.range n).map (fun d => Memory.get s.rawbuf (k + d))) :=
  if_pos ⟨h, le_trans h hc⟩

/-- A `MemRead` out of the bounds returns nothing. -/
theorem memRead_eq_none {s : State} {k n : Nat} (h : ¬ (k + n ≤ s.rawlen ∧ k + n ≤ 1024)) :
    memRead s k n = none := if_neg h

/-- The counter wraps at 9, R22. -/
theorem nextCnt_val (c : Fin Config.cycleLen) : (nextCnt c).val = if c.val = 9 then 0 else c.val + 1 := by
  unfold nextCnt
  have := c.isLt
  simp only [Config.cycleLen] at this ⊢
  split_ifs <;> first | rfl | omega

/-- The counter's value ten advances on is the same. -/
theorem nextCnt_val_mod (c : Fin Config.cycleLen) : (nextCnt c).val = (c.val + 1) % 10 := by
  have := c.isLt
  rw [nextCnt_val]
  simp only [Config.cycleLen] at this
  split_ifs <;> omega

theorem noavailRequest_due {s : State} (h : s.cfg.reqGate = .due) : noavailRequest s = sendRequest s := if_pos h

theorem noavailRequest_avail {s : State} (h : s.cfg.reqGate = .avail) : noavailRequest s = s :=
  if_neg (by simp [h])

end Sys2Proof.Machine
end

