-- ==== Sys2Proof/Laws/Operands.lean ====
section
/-! SUPPORT. The laws of the scan and of the payload, in terms of the bytes the buffer holds. -/

namespace Sys2Proof.Machine

@[simp] theorem buffer_length (s : State) : s.buffer.length = s.rawlen := by simp [State.buffer]

@[simp] theorem buffer_getElem (s : State) (k : Nat) (h : k < s.buffer.length) :
    s.buffer[k] = Memory.get s.rawbuf k := by
  simp [State.buffer]

theorem buffer_getElem? (s : State) (k : Nat) :
    s.buffer[k]? = if k < s.rawlen then some (Memory.get s.rawbuf k) else none := by
  split_ifs with h
  · rw [List.getElem?_eq_getElem (by simpa using h), buffer_getElem]
  · exact List.getElem?_eq_none (by simpa using h)

theorem buffer_getD {s : State} {k : Nat} (h : k < s.rawlen) : s.buffer.getD k 0#8 = Memory.get s.rawbuf k := by
  rw [List.getD_eq_getElem?_getD, buffer_getElem?, if_pos h, Option.getD_some]

/-- After RDBUF the buffer holds the bytes of the read, R108. -/
theorem buffer_readBuffer {s : State} (h : Memory.wf s.rawbuf) : (readBuffer s).buffer = readBytes s := by
  refine List.ext_getElem? fun k => ?_
  rw [buffer_getElem?, readBuffer_rawlen, readBuffer_rawbuf, Memory.get_write h]
  split_ifs with h1 h2
  · rw [Nat.sub_zero, List.getD_eq_getElem?_getD, List.getElem?_eq_getElem h1, Option.getD_some]
  · omega
  · rw [List.getElem?_eq_none (by omega)]

/-- The scan's comparison at an offset inside the buffer is R74's. -/
theorem memRead_marker {s : State} {j : Nat} (h : j + 3 ≤ s.rawlen) (hc : s.rawlen ≤ 1024) :
    ∃ bs, memRead s j Config.marker.length = some bs ∧ (bs = Config.marker ↔ MarkerAt s.buffer j) := by
  refine ⟨_, memRead_eq_some (n := 3) h hc, ?_⟩
  simp [MarkerAt, Config.marker, List.range_succ, show j < s.rawlen by omega,
    show j + 1 < s.rawlen by omega, show j + 2 < s.rawlen by omega]

theorem scanFrom_spec {s : State} {last : Nat} (hl : last + 8 = s.rawlen) (hc : s.rawlen ≤ 1024) (fuel j : Nat)
    (hf : j + fuel = last + 1) (hpos : j ≤ last) (hno : ∀ k, k < j → ¬ MarkerAt s.buffer k) :
    ∃ i f, scanFrom s last fuel j = some (i, f) ∧ Selected s.buffer i f := by
  induction fuel generalizing j with
  | zero => omega
  | succ fuel ih =>
    obtain ⟨bs, hread, hbs⟩ := memRead_marker (s := s) (j := j) (by omega) hc
    simp only [scanFrom, hread]
    by_cases hm : bs = Config.marker
    · rw [if_pos hm]
      exact ⟨j, true, rfl, .inl ⟨rfl, by rw [buffer_length]; omega, hbs.1 hm, hno⟩⟩
    · rw [if_neg hm]
      have hj : ¬ MarkerAt s.buffer j := fun h => hm (hbs.2 h)
      have hno' : ∀ k, k < j + 1 → ¬ MarkerAt s.buffer k := fun k hk => by
        rcases Nat.lt_succ_iff_lt_or_eq.1 hk with hk | rfl
        · exact hno k hk
        · exact hj
      by_cases hjl : j = last
      · rw [if_pos hjl]
        refine ⟨last, false, rfl, .inr ⟨rfl, fun k hk => hno' k ?_, by rw [buffer_length]; omega⟩⟩
        rw [buffer_length] at hk
        omega
      · rw [if_neg hjl]
        exact ih (j + 1) (by omega) (by omega) hno'

/-- The scan of a buffer of nine bytes or more ends inside its bounds with the offset of R125. -/
theorem scanResult_spec {s : State} (h9 : 9 ≤ s.rawlen) (hc : s.rawlen ≤ 1024) :
    ∃ i f, scanResult s = some (i, f) ∧ Selected s.buffer i f :=
  scanFrom_spec (by simp; omega) hc _ _ (by omega) (by omega) (by simp)

/-- The search has one result. -/
theorem Selected.unique {bs : List Byte} {i i' : Nat} {f f' : Bool} (h : Selected bs i f) (h' : Selected bs i' f') :
    i = i' ∧ f = f' := by
  rcases h with ⟨rfl, hl, hm, hlo⟩ | ⟨rfl, hno, hi⟩ <;> rcases h' with ⟨rfl, hl', hm', hlo'⟩ | ⟨rfl, hno', hi'⟩
  · rcases lt_trichotomy i i' with h | h | h
    · exact absurd hm (hlo' i h)
    · exact ⟨h, rfl⟩
    · exact absurd hm' (hlo i' h)
  · exact absurd hm (hno' i hl)
  · exact absurd hm' (hno i' hl')
  · exact ⟨by omega, rfl⟩

theorem Selected.le {bs : List Byte} {i : Nat} {f : Bool} (h : Selected bs i f) : i + 8 ≤ bs.length := by
  rcases h with ⟨-, hl, -⟩ | ⟨-, -, hi⟩ <;> omega

theorem scanResult_eq {s : State} {i : Nat} {f : Bool} (h9 : 9 ≤ s.rawlen) (hc : s.rawlen ≤ 1024)
    (h : Selected s.buffer i f) : scanResult s = some (i, f) := by
  obtain ⟨i', f', hs, h'⟩ := scanResult_spec h9 hc
  obtain ⟨rfl, rfl⟩ := h.unique h'
  exact hs

/-- The payload at an offset inside the buffer, R140. -/
theorem payload_eq {s : State} (h : s.idx + 7 ≤ s.rawlen) (hc : s.rawlen ≤ 1024) :
    payload s = some (payloadAt s.buffer s.idx) := by
  simp only [payload, memRead_eq_some (s := s) (k := s.idx + Config.payOff) (n := Config.payLen) (by simp; omega) hc]
  simp [payloadAt, List.range_succ, show s.idx + 3 < s.rawlen by omega,
    show s.idx + 4 < s.rawlen by omega, show s.idx + 5 < s.rawlen by omega, show s.idx + 6 < s.rawlen by omega,
    Nat.add_assoc]

theorem payload_eq_none {s : State} (h : ¬ (s.idx + 7 ≤ s.rawlen ∧ s.idx + 7 ≤ 1024)) : payload s = none := by
  simp only [payload, memRead_eq_none (s := s) (k := s.idx + Config.payOff) (n := Config.payLen) (by simpa [Nat.add_assoc] using h)]

/-- R145's exponent field in BINARY64. -/
@[simp] theorem expField_binary64 (e : Nat) : expField .binary64 e = 1007 + e := rfl

/-- R145's exponent field in BINARY32. -/
@[simp] theorem expField_binary32 (e : Nat) : expField .binary32 e = 111 + e := rfl

/-- The sum of R141 cannot carry out of 32 bits. -/
theorem u32be_toNat (b3 b2 b1 b0 : Byte) :
    (u32be b3 b2 b1 b0).toNat = b3.toNat * 2 ^ 24 + b2.toNat * 2 ^ 16 + b1.toNat * 2 ^ 8 + b0.toNat := by
  have h3 := b3.isLt
  have h2 := b2.isLt
  have h1 := b1.isLt
  have h0 := b0.isLt
  rw [u32be, BitVec.toNat_ofNat]
  exact Nat.mod_eq_of_lt (by omega)

end Sys2Proof.Machine
end

