-- ==== Sys2Proof/Laws/Flags.lean ====
section
/-! SUPPORT. Which outcome a tick condition word selects, and which event a boot word selects. -/

namespace Sys2Proof.Machine

/-- The outcome by the priority of R182. -/
def outcomeOf (halt isOpen due avail lenok found : Bool) : Instr :=
  if halt then .halt
  else if !isOpen then .skipClosed
  else if !due then .idle
  else if !avail then .skipNoavail
  else if !lenok then .attShort
  else if found then .attFound
  else .attFallback

/-- The boot event by the priority of R182. -/
def bootEventOf (openOk chOpen : Bool) : Instr :=
  if !openOk then .fatalOpen else if !chOpen then .fatalClosed else .bootOk

theorem decode_tcw : ∀ h o d a l f : Bool,
    decode ⟨.tcw, beBytes 1 (h.toNat * 32 + o.toNat * 16 + d.toNat * 8 + a.toNat * 4 + l.toNat * 2 + f.toNat)⟩ =
      .ok (outcomeOf h o d a l f) := by
  decide

theorem decode_boot : ∀ o c : Bool, decode ⟨.boot, beBytes 1 (o.toNat * 2 + c.toNat)⟩ = .ok (bootEventOf o c) := by
  decide

/-- The outcome a state's tick condition word selects. -/
def tickInstr (s : State) : Instr :=
  outcomeOf s.tin.halt s.tin.chOpen (due s) (avail s) (lenok s) (found s)

theorem decode_tcwWord (s : State) : decode (tcwWord s) = .ok (tickInstr s) := decode_tcw ..

theorem decode_bootWord (s : State) : decode (bootWord s) = .ok (bootEventOf s.bin.openOk s.bin.chOpen) :=
  decode_boot ..

theorem wordIs_tcwWord (s : State) (i : Instr) : wordIs (tcwWord s) i = true ↔ tickInstr s = i := by
  simp [wordIs, decode_tcwWord]

theorem wordIs_bootWord (s : State) (i : Instr) :
    wordIs (bootWord s) i = true ↔ bootEventOf s.bin.openOk s.bin.chOpen = i := by
  simp [wordIs, decode_bootWord]

theorem whenTick_eq {i : Instr} {s : State} (f : State → Host.Outcome State Fault Refusal) (hm : s.mode = .run)
    (hi : tickInstr s = i) : whenTick i s f = f s :=
  if_pos ⟨hm, (wordIs_tcwWord s i).2 hi⟩

theorem whenTick_fault {i : Instr} {s : State} (f : State → Host.Outcome State Fault Refusal)
    (h : ¬ (s.mode = .run ∧ tickInstr s = i)) : whenTick i s f = .fault .notSelected :=
  if_neg fun ⟨hm, hi⟩ => h ⟨hm, (wordIs_tcwWord s i).1 hi⟩

theorem whenBoot_eq {i : Instr} {s : State} (f : State → Host.Outcome State Fault Refusal) (hm : s.mode = .boot)
    (hi : bootEventOf s.bin.openOk s.bin.chOpen = i) : whenBoot i s f = f s :=
  if_pos ⟨hm, (wordIs_bootWord s i).2 hi⟩

theorem whenBoot_fault {i : Instr} {s : State} (f : State → Host.Outcome State Fault Refusal)
    (h : ¬ (s.mode = .boot ∧ bootEventOf s.bin.openOk s.bin.chOpen = i)) :
    whenBoot i s f = .fault .notSelected :=
  if_neg fun ⟨hm, hi⟩ => h ⟨hm, (wordIs_bootWord s i).1 hi⟩

/-- R102's test in the counter's own value. -/
theorem due_eq (s : State) : due s = decide (s.cnt.val = 9) := by
  have h : s.cnt.val < 10 := s.cnt.isLt
  simp [due, Nat.mod_eq_of_lt h, Bool.beq_eq_decide_eq]

theorem longEnough_readBuffer (s : State) : longEnough (readBuffer s) = decide (9 ≤ (readBytes s).length) := rfl

/-- The conditions under which a tick makes an attempt. -/
theorem attempts_eq_true {s : State} :
    attempts s = true ↔ s.tin.halt = false ∧ s.tin.chOpen = true ∧ s.cnt.val = 9 ∧ s.tin.rxAvail ≠ 0 := by
  simp [attempts, due_eq, avail, and_assoc]

section Selection

variable {s : State}

theorem tickInstr_halt (h : s.tin.halt = true) : tickInstr s = .halt := by simp [tickInstr, outcomeOf, h]

theorem tickInstr_skipClosed (h : s.tin.halt = false) (ho : s.tin.chOpen = false) : tickInstr s = .skipClosed := by
  simp [tickInstr, outcomeOf, h, ho]

theorem tickInstr_idle (h : s.tin.halt = false) (ho : s.tin.chOpen = true) (hd : s.cnt.val ≠ 9) :
    tickInstr s = .idle := by
  simp [tickInstr, outcomeOf, h, ho, due_eq, hd]

theorem tickInstr_skipNoavail (h : s.tin.halt = false) (ho : s.tin.chOpen = true) (hd : s.cnt.val = 9)
    (ha : s.tin.rxAvail = 0) : tickInstr s = .skipNoavail := by
  simp [tickInstr, outcomeOf, h, ho, due_eq, hd, avail, ha]

theorem tickInstr_attShort (h : s.tin.halt = false) (ho : s.tin.chOpen = true) (hd : s.cnt.val = 9)
    (ha : s.tin.rxAvail ≠ 0) (hl : (readBytes s).length < 9) : tickInstr s = .attShort := by
  have hlen : lenok s = false := by simp [lenok, longEnough_readBuffer, hl]
  simp [tickInstr, outcomeOf, h, ho, due_eq, hd, avail, ha, hlen]

theorem tickInstr_decoded (h : s.tin.halt = false) (ho : s.tin.chOpen = true)
    (hd : s.cnt.val = 9) (ha : s.tin.rxAvail ≠ 0) (hl : 9 ≤ (readBytes s).length) {i : Nat} {f : Bool}
    (hsel : Selected (readBuffer s).buffer i f) : tickInstr s = if f then .attFound else .attFallback := by
  have hatt : attempts s = true := attempts_eq_true.2 ⟨h, ho, hd, ha⟩
  have hlen : lenok s = true := by simp [lenok, hatt, longEnough_readBuffer, hl]
  have hs : scanResult (readBuffer s) = some (i, f) :=
    scanResult_eq hl (readBytes_length_le s) hsel
  have hfound : found s = f := by simp [found, hlen, hs]
  simp [tickInstr, outcomeOf, h, ho, due_eq, hd, avail, ha, hlen, hfound]

end Selection

end Sys2Proof.Machine
end

