-- ==== Sys2Proof/Laws/Outcomes.lean ====
section
/-! SUPPORT. What an attempt does, and what a tick does, said once: every tick taken in RUN ends in one of seven states. -/

namespace Sys2Proof.Machine

/-- The state after an attempt whose read was short, R106 and R120. -/
def afterShort (s : State) : State :=
  endTick .attShort (publish s.reading { readBuffer (sendRequest s) with decOk := false })

/-- The state after an attempt that decoded at offset `i` of the bytes stored, R106. -/
def afterDecoded (s : State) (i : Nat) (f : Bool) : State :=
  let v := payloadAt (readBuffer s).buffer i
  let r : Reading := ⟨s.tin.now, q16ToFloat s.cfg.lenFmt v⟩
  endTick (if f then .attFound else .attFallback)
    (publish r
      { readBuffer (sendRequest s) with
        idx := i, syncFound := f, value := v, len := r.length, reading := r, decOk := true })

/-- The state after SKIP_NOAVAIL, R104 and R105. -/
def afterNoavail (s : State) : State :=
  endTick .skipNoavail (noavailRequest s)

/-- The state after SKIP_CLOSED, R176. -/
def afterClosed (s : State) : State :=
  endTick .skipClosed (pulseClosed s)

theorem attempt_short {s : State} (h : (readBytes s).length < 9) : attempt s = .next (afterShort s) := by
  have h1 : longEnough (readBuffer (sendRequest s)) = false := decide_eq_false (not_le.2 h)
  simp only [attempt, execWrreq, execRdbuf, execLenchk, andThen_next, decOkAfterLenchk, h1]
  exact if_neg fun h => Bool.false_ne_true (h1.symm.trans h)

/-- SCAN on a buffer of nine bytes or more, R122. -/
theorem execScan_eq {s : State} (h9 : 9 ≤ s.rawlen) (hc : s.rawlen ≤ 1024) {i : Nat} {f : Bool}
    (h : Selected s.buffer i f) : execScan s = .next { s with idx := i, syncFound := f } := by
  simp [execScan, longEnough, h9, scanResult_eq h9 hc h]

theorem execScan_short {s : State} (h : s.rawlen < 9) : execScan s = .fault .shortBuffer := by
  simp [execScan, longEnough, h]

/-- ASM32 inside the buffer, R140. -/
theorem execAsm32_eq {s : State} (h : s.idx + 7 ≤ s.rawlen) (hc : s.rawlen ≤ 1024) :
    execAsm32 s = .next { s with value := payloadAt s.buffer s.idx } := by
  simp [execAsm32, payload_eq h hc]

/-- The chain SCAN, ASM32, SCALE, STAMP never fails after the length check, R149. -/
theorem decodeChain_eq {s : State} (h9 : 9 ≤ s.rawlen) (hc : s.rawlen ≤ 1024) {i : Nat} {f : Bool}
    (h : Selected s.buffer i f) :
    decodeChain s =
      .next { s with
        idx := i, syncFound := f, value := payloadAt s.buffer i
        len := q16ToFloat s.cfg.lenFmt (payloadAt s.buffer i)
        reading := ⟨s.tin.now, q16ToFloat s.cfg.lenFmt (payloadAt s.buffer i)⟩, decOk := true } := by
  have hle := h.le
  rw [buffer_length] at hle
  have ha := execAsm32_eq (s := { s with idx := i, syncFound := f }) (by simp; omega) hc
  simp only [decodeChain, execScan_eq h9 hc h, andThen_next, ha]
  rfl

theorem attempt_decoded {s : State} (hl : 9 ≤ (readBytes s).length) {i : Nat} {f : Bool}
    (hsel : Selected (readBuffer s).buffer i f) : attempt s = .next (afterDecoded s i f) := by
  have h1 : longEnough (readBuffer (sendRequest s)) = true := decide_eq_true hl
  have hb : (readBuffer (sendRequest s)).buffer = (readBuffer s).buffer := rfl
  have hd := decodeChain_eq (s := readBuffer (sendRequest s)) hl (readBytes_length_le s) (by rwa [hb])
  have hk : ({ readBuffer (sendRequest s) with decOk := (readBuffer (sendRequest s)).decOk } : State) =
      readBuffer (sendRequest s) := rfl
  simp only [attempt, execWrreq, execRdbuf, execLenchk, decOkAfterLenchk, andThen_next, h1, if_true, hk, hd, hb,
    execPublish, endDecoded]
  rfl

theorem exec_halt_eq {s : State} (hm : s.mode = .run) (ht : tickInstr s = .halt) :
    exec .halt s = .next (raiseEvent .halt .halted s) := by
  show execHalt s = _
  rw [execHalt, whenTick_eq _ hm ht]

theorem exec_skipClosed_eq {s : State} (hm : s.mode = .run) (ht : tickInstr s = .skipClosed) :
    exec .skipClosed s = .next (afterClosed s) := by
  show execSkipClosed s = _
  rw [execSkipClosed, whenTick_eq _ hm ht]
  rfl

theorem exec_idle_eq {s : State} (hm : s.mode = .run) (ht : tickInstr s = .idle) :
    exec .idle s = .next (endTick .idle s) := by
  show execIdle s = _
  rw [execIdle, whenTick_eq _ hm ht]

theorem exec_skipNoavail_eq {s : State} (hm : s.mode = .run) (ht : tickInstr s = .skipNoavail) :
    exec .skipNoavail s = .next (afterNoavail s) := by
  show execSkipNoavail s = _
  rw [execSkipNoavail, whenTick_eq _ hm ht]
  rfl

theorem exec_attShort_eq {s : State} (hm : s.mode = .run) (ht : tickInstr s = .attShort) :
    exec .attShort s = attempt s := whenTick_eq attempt hm ht

theorem exec_attFallback_eq {s : State} (hm : s.mode = .run) (ht : tickInstr s = .attFallback) :
    exec .attFallback s = attempt s := whenTick_eq attempt hm ht

theorem exec_attFound_eq {s : State} (hm : s.mode = .run) (ht : tickInstr s = .attFound) :
    exec .attFound s = attempt s := whenTick_eq attempt hm ht

theorem exec_bootOk_eq {s : State} (hm : s.mode = .boot)
    (hb : bootEventOf s.bin.openOk s.bin.chOpen = .bootOk) : exec .bootOk s = .next (raiseEvent .bootOk .run s) := by
  show execBootOk s = _
  rw [execBootOk, whenBoot_eq _ hm hb]

theorem exec_fatalOpen_eq {s : State} (hm : s.mode = .boot)
    (hb : bootEventOf s.bin.openOk s.bin.chOpen = .fatalOpen) : exec .fatalOpen s = .next (raiseEvent .fatalOpen .fatal s) := by
  show execFatalOpen s = _
  rw [execFatalOpen, whenBoot_eq _ hm hb]

theorem exec_fatalClosed_eq {s : State} (hm : s.mode = .boot)
    (hb : bootEventOf s.bin.openOk s.bin.chOpen = .fatalClosed) : exec .fatalClosed s = .next (raiseEvent .fatalClosed .fatal s) := by
  show execFatalClosed s = _
  rw [execFatalClosed, whenBoot_eq _ hm hb]

/-- A tick outcome that is not selected stops, log entry 16. -/
theorem exec_tickOutcome_fault {s : State} {j : Instr} (hj : j ∈ tickOutcomes)
    (h : ¬ (s.mode = .run ∧ tickInstr s = j)) : exec j s = .fault .notSelected := by
  simp only [tickOutcomes, List.mem_cons, List.not_mem_nil, or_false] at hj
  rcases hj with rfl | rfl | rfl | rfl | rfl | rfl | rfl
  all_goals
    simp only [exec, execIdle, execSkipClosed, execSkipNoavail, execAttShort, execAttFallback, execAttFound, execHalt]
    exact whenTick_fault _ h

/-- A boot event that is not selected stops, log entry 16. -/
theorem exec_bootEvent_fault {s : State} {j : Instr} (hj : j ∈ bootEvents)
    (h : ¬ (s.mode = .boot ∧ bootEventOf s.bin.openOk s.bin.chOpen = j)) : exec j s = .fault .notSelected := by
  simp only [bootEvents, List.mem_cons, List.not_mem_nil, or_false] at hj
  rcases hj with rfl | rfl | rfl
  all_goals
    simp only [exec, execBootOk, execFatalOpen, execFatalClosed]
    exact whenBoot_fault _ h

/-- What a tick in RUN does: one of the seven outcomes of R80, each under its own conditions. -/
theorem exec_tickInstr {s : State} (hm : s.mode = .run) :
    (s.tin.halt = true ∧ tickInstr s = .halt ∧ exec (tickInstr s) s = .next (raiseEvent .halt .halted s)) ∨
    (s.tin.halt = false ∧ s.tin.chOpen = false ∧ tickInstr s = .skipClosed ∧
      exec (tickInstr s) s = .next (afterClosed s)) ∨
    (s.tin.halt = false ∧ s.tin.chOpen = true ∧ s.cnt.val ≠ 9 ∧ tickInstr s = .idle ∧
      exec (tickInstr s) s = .next (endTick .idle s)) ∨
    (s.tin.halt = false ∧ s.tin.chOpen = true ∧ s.cnt.val = 9 ∧ s.tin.rxAvail = 0 ∧ tickInstr s = .skipNoavail ∧
      exec (tickInstr s) s = .next (afterNoavail s)) ∨
    (s.tin.halt = false ∧ s.tin.chOpen = true ∧ s.cnt.val = 9 ∧ s.tin.rxAvail ≠ 0 ∧ (readBytes s).length < 9 ∧
      tickInstr s = .attShort ∧ exec (tickInstr s) s = .next (afterShort s)) ∨
    (s.tin.halt = false ∧ s.tin.chOpen = true ∧ s.cnt.val = 9 ∧ s.tin.rxAvail ≠ 0 ∧ 9 ≤ (readBytes s).length ∧
      ∃ i f, Selected (readBuffer s).buffer i f ∧ tickInstr s = (if f then .attFound else .attFallback) ∧
        exec (tickInstr s) s = .next (afterDecoded s i f)) := by
  cases hh : s.tin.halt with
  | true =>
    have ht := tickInstr_halt hh
    exact .inl ⟨rfl, ht, by rw [ht]; exact exec_halt_eq hm ht⟩
  | false =>
    refine .inr ?_
    cases ho : s.tin.chOpen with
    | false =>
      have ht := tickInstr_skipClosed hh ho
      exact .inl ⟨rfl, rfl, ht, by rw [ht]; exact exec_skipClosed_eq hm ht⟩
    | true =>
      refine .inr ?_
      by_cases hd : s.cnt.val = 9
      · by_cases ha : s.tin.rxAvail = 0
        · have ht := tickInstr_skipNoavail hh ho hd ha
          exact .inr (.inl ⟨rfl, rfl, hd, ha, ht, by rw [ht]; exact exec_skipNoavail_eq hm ht⟩)
        · by_cases hl : (readBytes s).length < 9
          · have ht := tickInstr_attShort hh ho hd ha hl
            refine .inr (.inr (.inl ⟨rfl, rfl, hd, ha, hl, ht, ?_⟩))
            rw [ht, ← attempt_short hl]
            exact exec_attShort_eq hm ht
          · have hl' : 9 ≤ (readBytes s).length := not_lt.1 hl
            obtain ⟨i, f, -, hsel⟩ := scanResult_spec (s := readBuffer s) hl' (readBytes_length_le s)
            have ht := tickInstr_decoded hh ho hd ha hl' hsel
            refine .inr (.inr (.inr ⟨rfl, rfl, hd, ha, hl', i, f, hsel, ht, ?_⟩))
            rw [← attempt_decoded hl' hsel, ht]
            cases f
            · exact exec_attFallback_eq hm ht
            · exact exec_attFound_eq hm ht
      · have ht := tickInstr_idle hh ho hd
        exact .inl ⟨rfl, rfl, hd, ht, by rw [ht]; exact exec_idle_eq hm ht⟩

/-! What a due tick with no bytes leaves alone, whichever the gate. -/

@[simp] theorem afterNoavail_seq (s : State) : (afterNoavail s).seq = s.seq := by
  unfold afterNoavail noavailRequest; split_ifs <;> rfl
@[simp] theorem afterNoavail_cfg (s : State) : (afterNoavail s).cfg = s.cfg := by
  unfold afterNoavail noavailRequest; split_ifs <;> rfl
@[simp] theorem afterNoavail_inputs (s : State) : (afterNoavail s).env.inputs = s.env.inputs := by
  unfold afterNoavail noavailRequest; split_ifs <;> rfl
@[simp] theorem afterNoavail_rxq (s : State) : (afterNoavail s).env.rxq = s.env.rxq := by
  unfold afterNoavail noavailRequest; split_ifs <;> rfl
@[simp] theorem afterNoavail_mode (s : State) : (afterNoavail s).mode = s.mode := by
  unfold afterNoavail noavailRequest; split_ifs <;> rfl
@[simp] theorem afterNoavail_cnt (s : State) : (afterNoavail s).cnt = nextCnt s.cnt := by
  unfold afterNoavail noavailRequest; split_ifs <;> rfl
@[simp] theorem afterNoavail_sink (s : State) : (afterNoavail s).env.sink = s.env.sink := by
  unfold afterNoavail noavailRequest; split_ifs <;> rfl
@[simp] theorem afterNoavail_reading (s : State) : (afterNoavail s).reading = s.reading := by
  unfold afterNoavail noavailRequest; split_ifs <;> rfl
@[simp] theorem afterNoavail_len (s : State) : (afterNoavail s).len = s.len := by
  unfold afterNoavail noavailRequest; split_ifs <;> rfl
@[simp] theorem afterNoavail_rawbuf (s : State) : (afterNoavail s).rawbuf = s.rawbuf := by
  unfold afterNoavail noavailRequest; split_ifs <;> rfl
@[simp] theorem afterNoavail_rawlen (s : State) : (afterNoavail s).rawlen = s.rawlen := by
  unfold afterNoavail noavailRequest; split_ifs <;> rfl
@[simp] theorem afterNoavail_idx (s : State) : (afterNoavail s).idx = s.idx := by
  unfold afterNoavail noavailRequest; split_ifs <;> rfl
@[simp] theorem afterNoavail_decOk (s : State) : (afterNoavail s).decOk = s.decOk := by
  unfold afterNoavail noavailRequest; split_ifs <;> rfl
@[simp] theorem afterNoavail_syncFound (s : State) : (afterNoavail s).syncFound = s.syncFound := by
  unfold afterNoavail noavailRequest; split_ifs <;> rfl
@[simp] theorem afterNoavail_outcome (s : State) : (afterNoavail s).out.outcome = some .skipNoavail := by
  unfold afterNoavail noavailRequest; split_ifs <;> rfl
@[simp] theorem afterNoavail_rdReq (s : State) : (afterNoavail s).out.rdReq = s.out.rdReq := by
  unfold afterNoavail noavailRequest; split_ifs <;> rfl
@[simp] theorem afterNoavail_pub (s : State) : (afterNoavail s).out.pub = s.out.pub := by
  unfold afterNoavail noavailRequest; split_ifs <;> rfl
@[simp] theorem afterNoavail_closedEvt (s : State) : (afterNoavail s).out.closedEvt = s.out.closedEvt := by
  unfold afterNoavail noavailRequest; split_ifs <;> rfl
@[simp] theorem afterNoavail_value (s : State) : (afterNoavail s).value = s.value := by
  unfold afterNoavail noavailRequest; split_ifs <;> rfl
@[simp] theorem afterNoavail_bin (s : State) : (afterNoavail s).bin = s.bin := by
  unfold afterNoavail noavailRequest; split_ifs <;> rfl
@[simp] theorem afterNoavail_tin (s : State) : (afterNoavail s).tin = s.tin := by
  unfold afterNoavail noavailRequest; split_ifs <;> rfl

/-! The fields after a closed, a short and a decoded tick. -/

@[simp] theorem afterClosed_mode (s : State) : (afterClosed s).mode = s.mode := rfl
@[simp] theorem afterClosed_cfg (s : State) : (afterClosed s).cfg = s.cfg := rfl
@[simp] theorem afterClosed_tin (s : State) : (afterClosed s).tin = s.tin := rfl
@[simp] theorem afterClosed_bin (s : State) : (afterClosed s).bin = s.bin := rfl
@[simp] theorem afterClosed_seq (s : State) : (afterClosed s).seq = s.seq := rfl
@[simp] theorem afterClosed_cnt (s : State) : (afterClosed s).cnt = nextCnt s.cnt := rfl
@[simp] theorem afterClosed_rawbuf (s : State) : (afterClosed s).rawbuf = s.rawbuf := rfl
@[simp] theorem afterClosed_rawlen (s : State) : (afterClosed s).rawlen = s.rawlen := rfl
@[simp] theorem afterClosed_idx (s : State) : (afterClosed s).idx = s.idx := rfl
@[simp] theorem afterClosed_value (s : State) : (afterClosed s).value = s.value := rfl
@[simp] theorem afterClosed_reading (s : State) : (afterClosed s).reading = s.reading := rfl
@[simp] theorem afterClosed_decOk (s : State) : (afterClosed s).decOk = s.decOk := rfl
@[simp] theorem afterClosed_syncFound (s : State) : (afterClosed s).syncFound = s.syncFound := rfl
@[simp] theorem afterClosed_len (s : State) : (afterClosed s).len = s.len := rfl
@[simp] theorem afterClosed_env (s : State) : (afterClosed s).env = s.env := rfl
@[simp] theorem afterClosed_out (s : State) : (afterClosed s).out = { s.out with outcome := some .skipClosed, closedEvt := true } := rfl

@[simp] theorem afterShort_mode (s : State) : (afterShort s).mode = s.mode := rfl
@[simp] theorem afterShort_cfg (s : State) : (afterShort s).cfg = s.cfg := rfl
@[simp] theorem afterShort_tin (s : State) : (afterShort s).tin = s.tin := rfl
@[simp] theorem afterShort_bin (s : State) : (afterShort s).bin = s.bin := rfl
@[simp] theorem afterShort_seq (s : State) : (afterShort s).seq = s.seq := rfl
@[simp] theorem afterShort_cnt (s : State) : (afterShort s).cnt = nextCnt s.cnt := rfl
@[simp] theorem afterShort_idx (s : State) : (afterShort s).idx = s.idx := rfl
@[simp] theorem afterShort_value (s : State) : (afterShort s).value = s.value := rfl
@[simp] theorem afterShort_reading (s : State) : (afterShort s).reading = s.reading := rfl
@[simp] theorem afterShort_syncFound (s : State) : (afterShort s).syncFound = s.syncFound := rfl
@[simp] theorem afterShort_len (s : State) : (afterShort s).len = s.len := rfl
@[simp] theorem afterShort_decOk (s : State) : (afterShort s).decOk = false := rfl
@[simp] theorem afterShort_out (s : State) : (afterShort s).out = { s.out with
      outcome := some .attShort, tx := some Config.reqCmd, rdReq := some (readSize s), pub := some s.reading } := rfl
@[simp] theorem afterShort_rawbuf (s : State) : (afterShort s).rawbuf = Memory.write s.rawbuf 0 (readBytes s) := rfl
@[simp] theorem afterShort_rawlen (s : State) : (afterShort s).rawlen = (readBytes s).length := rfl
@[simp] theorem afterShort_env (s : State) : (afterShort s).env = { s.env with
      rxq := s.env.rxq.drop (readBytes s).length, sent := s.env.sent ++ Config.reqCmd
      sink := s.env.sink ++ [s.reading] } := rfl

@[simp] theorem afterDecoded_mode (s : State) (i : Nat) (f : Bool) : (afterDecoded s i f).mode = s.mode := rfl
@[simp] theorem afterDecoded_cfg (s : State) (i : Nat) (f : Bool) : (afterDecoded s i f).cfg = s.cfg := rfl
@[simp] theorem afterDecoded_tin (s : State) (i : Nat) (f : Bool) : (afterDecoded s i f).tin = s.tin := rfl
@[simp] theorem afterDecoded_bin (s : State) (i : Nat) (f : Bool) : (afterDecoded s i f).bin = s.bin := rfl
@[simp] theorem afterDecoded_seq (s : State) (i : Nat) (f : Bool) : (afterDecoded s i f).seq = s.seq := rfl
@[simp] theorem afterDecoded_cnt (s : State) (i : Nat) (f : Bool) : (afterDecoded s i f).cnt = nextCnt s.cnt := rfl
@[simp] theorem afterDecoded_idx (s : State) (i : Nat) (f : Bool) : (afterDecoded s i f).idx = i := rfl
@[simp] theorem afterDecoded_syncFound (s : State) (i : Nat) (f : Bool) : (afterDecoded s i f).syncFound = f := rfl
@[simp] theorem afterDecoded_decOk (s : State) (i : Nat) (f : Bool) : (afterDecoded s i f).decOk = true := rfl
@[simp] theorem afterDecoded_value (s : State) (i : Nat) (f : Bool) : (afterDecoded s i f).value = payloadAt (readBuffer s).buffer i := rfl
@[simp] theorem afterDecoded_len (s : State) (i : Nat) (f : Bool) : (afterDecoded s i f).len = q16ToFloat s.cfg.lenFmt (payloadAt (readBuffer s).buffer i) := rfl
@[simp] theorem afterDecoded_reading (s : State) (i : Nat) (f : Bool) : (afterDecoded s i f).reading = ⟨s.tin.now, q16ToFloat s.cfg.lenFmt (payloadAt (readBuffer s).buffer i)⟩ := rfl
@[simp] theorem afterDecoded_out (s : State) (i : Nat) (f : Bool) : (afterDecoded s i f).out = { s.out with
      outcome := some (if f then .attFound else .attFallback), tx := some Config.reqCmd, rdReq := some (readSize s)
      pub := some ⟨s.tin.now, q16ToFloat s.cfg.lenFmt (payloadAt (readBuffer s).buffer i)⟩ } := rfl
@[simp] theorem afterDecoded_rawbuf (s : State) (i : Nat) (f : Bool) : (afterDecoded s i f).rawbuf = Memory.write s.rawbuf 0 (readBytes s) := rfl
@[simp] theorem afterDecoded_rawlen (s : State) (i : Nat) (f : Bool) : (afterDecoded s i f).rawlen = (readBytes s).length := rfl
@[simp] theorem afterDecoded_env (s : State) (i : Nat) (f : Bool) : (afterDecoded s i f).env = { s.env with
      rxq := s.env.rxq.drop (readBytes s).length, sent := s.env.sent ++ Config.reqCmd
      sink := s.env.sink ++ [⟨s.tin.now, q16ToFloat s.cfg.lenFmt (payloadAt (readBuffer s).buffer i)⟩] } := rfl

/-! ### A tick cut short by a reset, R200 -/

/-- The state with the events a tick has issued: the request, a read, a record, the pulse. The environment has them. -/
def issued (s : State) (tx : Option (List Byte)) (rd : Option Nat) (pub : Option Reading) (closed : Bool) : State :=
  { s with
    out := ⟨none, tx, rd, pub, closed⟩
    env := { s.env with
      rxq := s.env.rxq.drop (if rd.isSome then (readBytes s).length else 0)
      sent := s.env.sent ++ tx.getD []
      sink := s.env.sink ++ pub.toList } }

/-- The events of an attempt after `done` of its `k` operations, the last of which publishes `r`. -/
def attemptIssued (k : Nat) (r : Reading) (done : Nat) (s : State) : State :=
  issued s (if 1 ≤ done then some Config.reqCmd else none) (if 2 ≤ done then some (readSize s) else none)
    (if k ≤ done then some r else none) false

/-- A reset in a tick keeps nothing of the block but its parameters and the outputs issued. -/
theorem resetInTick_congr {s t : State} (hc : s.cfg = t.cfg) (ho : s.out = t.out) (he : s.env = t.env) :
    resetInTick s = resetInTick t := by
  simp [resetInTick, applyReset, hc, ho, he]

theorem cutTick_eq (s : State) (done : Nat) :
    cutTick done s =
      andThen (runStages ((tickStages (tickInstr s)).take done) s) fun u => .next (resetInTick u) := by
  simp [cutTick, decode_tcwWord]

/-- The operations of an attempt with a short read, the first `done` of them. -/
theorem runStages_short {s : State} (ho : s.out = TickOut.none) (done : Nat) :
    ∃ u, runStages ((tickStages .attShort).take done) s = .next u ∧
      resetInTick u = resetInTick (attemptIssued 4 s.reading done s) := by
  rcases done with _ | _ | _ | _ | n
  case succ.succ.succ.succ =>
    rw [show (tickStages .attShort).take (n + 1 + 1 + 1 + 1) = tickStages .attShort by simp [tickStages]]
    refine ⟨_, rfl, resetInTick_congr ?_ ?_ ?_⟩ <;> simp [attemptIssued, issued, ho, TickOut.none]
  all_goals
    refine ⟨_, rfl, resetInTick_congr ?_ ?_ ?_⟩ <;> simp [attemptIssued, issued, ho, TickOut.none]

/-- The operations of an attempt that decodes at offset `i`, the first `done` of them. -/
theorem runStages_decoded {s : State} (ho : s.out = TickOut.none) (hl : 9 ≤ (readBytes s).length) {i : Nat} {f : Bool}
    (hsel : Selected (readBuffer s).buffer i f) (done : Nat) :
    ∃ u, runStages ((tickStages .attFound).take done) s = .next u ∧
      resetInTick u = resetInTick (attemptIssued 8
        ⟨s.tin.now, q16ToFloat s.cfg.lenFmt (payloadAt (readBuffer s).buffer i)⟩ done s) := by
  have hle : i + 8 ≤ (readBytes s).length := by simpa using hsel.le
  have hcap : (readBytes s).length ≤ 1024 := readBytes_length_le s
  let x : State := { readBuffer (sendRequest s) with decOk := decOkAfterLenchk (readBuffer (sendRequest s)) }
  have hscan : execScan x = .next { x with idx := i, syncFound := f } := execScan_eq hl hcap hsel
  have hasm : execAsm32 { x with idx := i, syncFound := f } =
      .next { x with idx := i, syncFound := f, value := payloadAt (readBuffer s).buffer i } :=
    execAsm32_eq (s := { x with idx := i, syncFound := f })
      (show i + 7 ≤ (readBytes s).length by omega) hcap
  have toScan : ∀ fs, runStages (execWrreq :: execRdbuf :: execLenchk :: execScan :: fs) s =
      runStages fs { x with idx := i, syncFound := f } := fun fs => by
    show andThen (execScan x) _ = _
    rw [hscan]
    rfl
  have toAsm : ∀ fs, runStages (execWrreq :: execRdbuf :: execLenchk :: execScan :: execAsm32 :: fs) s =
      runStages fs { x with idx := i, syncFound := f, value := payloadAt (readBuffer s).buffer i } := fun fs => by
    rw [toScan]
    show andThen (execAsm32 _) _ = _
    rw [hasm]
    rfl
  rcases done with _ | _ | _ | _ | _ | _ | _ | _ | n
  case succ.succ.succ.succ.succ.succ.succ.succ =>
    rw [show (tickStages .attFound).take (n + 1 + 1 + 1 + 1 + 1 + 1 + 1 + 1) = tickStages .attFound by simp [tickStages]]
    refine ⟨_, toAsm [execScale, execStamp, execPublish], resetInTick_congr ?_ ?_ ?_⟩ <;>
      simp [x, attemptIssued, issued, ho, nowSample, TickOut.none]
  iterate 4
    refine ⟨_, rfl, resetInTick_congr ?_ ?_ ?_⟩ <;> simp [attemptIssued, issued, ho, TickOut.none]
  · refine ⟨_, toScan [], resetInTick_congr ?_ ?_ ?_⟩ <;> simp [x, attemptIssued, issued, ho, nowSample, TickOut.none]
  · refine ⟨_, toAsm [], resetInTick_congr ?_ ?_ ?_⟩ <;> simp [x, attemptIssued, issued, ho, nowSample, TickOut.none]
  · refine ⟨_, toAsm [execScale], resetInTick_congr ?_ ?_ ?_⟩ <;> simp [x, attemptIssued, issued, ho, nowSample, TickOut.none]
  · refine ⟨_, toAsm [execScale, execStamp], resetInTick_congr ?_ ?_ ?_⟩ <;>
      simp [x, attemptIssued, issued, ho, nowSample, TickOut.none]

/-- All that the first `done` operations of a tick and a reset can do, R200, by the conditions of the tick. -/
theorem cutTick_cases {s : State} (ho : s.out = TickOut.none) (done : Nat) :
    ((s.tin.halt = true ∨ s.tin.chOpen = true ∧ s.cnt.val ≠ 9) ∧ cutTick done s = .next (resetInTick s)) ∨
    (s.tin.halt = false ∧ s.tin.chOpen = false ∧
      cutTick done s = .next (resetInTick (issued s none none none (decide (1 ≤ done))))) ∨
    (s.tin.halt = false ∧ s.tin.chOpen = true ∧ s.cnt.val = 9 ∧ s.tin.rxAvail = 0 ∧
      cutTick done s = .next (resetInTick (issued s
        (if 1 ≤ done ∧ s.cfg.reqGate = .due then some Config.reqCmd else none) none none false))) ∨
    (s.tin.halt = false ∧ s.tin.chOpen = true ∧ s.cnt.val = 9 ∧ s.tin.rxAvail ≠ 0 ∧ (readBytes s).length < 9 ∧
      cutTick done s = .next (resetInTick (attemptIssued 4 s.reading done s))) ∨
    (s.tin.halt = false ∧ s.tin.chOpen = true ∧ s.cnt.val = 9 ∧ s.tin.rxAvail ≠ 0 ∧ 9 ≤ (readBytes s).length ∧
      ∃ i f, Selected (readBuffer s).buffer i f ∧
        cutTick done s = .next (resetInTick (attemptIssued 8
          ⟨s.tin.now, q16ToFloat s.cfg.lenFmt (payloadAt (readBuffer s).buffer i)⟩ done s))) := by
  have stages : ∀ {i u}, tickInstr s = i → runStages ((tickStages i).take done) s = .next u →
      cutTick done s = .next (resetInTick u) := fun hi hu => by rw [cutTick_eq, hi, hu]; rfl
  cases hh : s.tin.halt with
  | true => exact .inl ⟨.inl rfl, stages (tickInstr_halt hh) (by simp [tickStages, runStages])⟩
  | false =>
    cases hop : s.tin.chOpen with
    | false =>
      refine .inr (.inl ⟨rfl, rfl, ?_⟩)
      have hi := tickInstr_skipClosed hh hop
      rcases done with _ | n
      · rw [stages hi rfl]
        exact congrArg _ (resetInTick_congr rfl (by simp [issued, ho, TickOut.none]) (by simp [issued]))
      · rw [stages (u := pulseClosed s) hi (by simp [tickStages, runStages])]
        exact congrArg _
          (resetInTick_congr rfl (by simp [issued, pulseClosed, ho, TickOut.none]) (by simp [issued, pulseClosed]))
    | true =>
      by_cases hd : s.cnt.val = 9
      · by_cases ha : s.tin.rxAvail = 0
        · refine .inr (.inr (.inl ⟨rfl, rfl, hd, ha, ?_⟩))
          have hi := tickInstr_skipNoavail hh hop hd ha
          rcases done with _ | n
          · rw [stages hi rfl]
            exact congrArg _ (resetInTick_congr rfl (by simp [issued, ho, TickOut.none]) (by simp [issued]))
          · rw [stages (u := noavailRequest s) hi (by simp [tickStages, runStages])]
            by_cases hg : s.cfg.reqGate = .due <;>
              exact congrArg _ (resetInTick_congr (by simp [issued, noavailRequest, hg])
                (by simp [issued, noavailRequest, hg, ho, TickOut.none]) (by simp [issued, noavailRequest, hg]))
        · by_cases hl : (readBytes s).length < 9
          · obtain ⟨u, hu, hr⟩ := runStages_short ho done
            exact .inr (.inr (.inr (.inl ⟨rfl, rfl, hd, ha, hl,
              (stages (tickInstr_attShort hh hop hd ha hl) hu).trans (congrArg _ hr)⟩)))
          · have hl' : 9 ≤ (readBytes s).length := not_lt.1 hl
            obtain ⟨i, f, -, hsel⟩ := scanResult_spec (s := readBuffer s) hl' (readBytes_length_le s)
            obtain ⟨u, hu, hr⟩ := runStages_decoded ho hl' hsel done
            refine .inr (.inr (.inr (.inr ⟨rfl, rfl, hd, ha, hl', i, f, hsel, ?_⟩)))
            have hi := tickInstr_decoded hh hop hd ha hl' hsel
            cases f <;> exact (stages hi hu).trans (congrArg _ hr)
      · exact .inl ⟨.inr ⟨rfl, hd⟩, stages (tickInstr_idle hh hop hd) (by simp [tickStages, runStages])⟩

/-- A tick cut short always ends in the reset block, has sent the request or nothing, and has read and published nothing
where no bytes were available. -/
theorem cutTick_next {s : State} (ho : s.out = TickOut.none) (done : Nat) :
    ∃ tx rd pub closed, cutTick done s = .next (resetInTick (issued s tx rd pub closed)) ∧
      (tx = none ∨ tx = some Config.reqCmd) ∧
      (s.tin.rxAvail = 0 → rd = none ∧ pub = none ∧ (s.cfg.reqGate = .avail → tx = none)) := by
  have tx_cases : ∀ c : Prop, [Decidable c] → (if c then some Config.reqCmd else none) = none ∨
      (if c then some Config.reqCmd else none) = some Config.reqCmd := fun c _ => by split_ifs <;> simp
  rcases cutTick_cases ho done with ⟨-, h⟩ | ⟨-, -, h⟩ | ⟨-, -, -, -, h⟩ | ⟨-, -, -, ha, -, h⟩ |
    ⟨-, -, -, ha, -, i, f, -, h⟩
  · refine ⟨none, none, none, false, h.trans (congrArg _ (resetInTick_congr rfl ?_ ?_)), .inl rfl, by simp⟩
    · simp [issued, ho, TickOut.none]
    · simp [issued]
  · exact ⟨_, _, _, _, h, .inl rfl, by simp⟩
  · exact ⟨_, _, _, _, h, tx_cases _, fun _ => ⟨rfl, rfl, fun hg => by simp [hg]⟩⟩
  · exact ⟨_, _, _, _, h, tx_cases _, fun h0 => absurd h0 ha⟩
  · exact ⟨_, _, _, _, h, tx_cases _, fun h0 => absurd h0 ha⟩

end Sys2Proof.Machine
end

