-- ==== Sys2Proof/Laws/PerInstr.lean ====
section
/-! SUPPORT. One lemma per instruction: the number of a well-formed instruction's word fits the word's width. -/

namespace Sys2Proof.Laws.NumberFits

def Statement (i : Instr) : Prop :=
  ∀ f : LenFmt, i.wellFormed f = true → encodeNumber f i < 2 ^ (i.format f).bits

theorem req : Statement .req := fun f _ => by cases f <;> decide

theorem resp (v : Word32) : Statement (.resp v) := fun f _ => by
  have hv := v.isLt
  show markerField * 2 ^ 32 + v.toNat < 2 ^ 56
  rw [markerField_eq]
  omega

theorem reading (t l : FloatBits) : Statement (.reading t l) := fun f h => by
  have ht := t.isLt
  have hl := l.isLt
  cases f with
  | binary64 =>
    show t.toNat * 2 ^ 64 + l.toNat < 2 ^ 128
    omega
  | binary32 =>
    have hl32 : l.toNat < 2 ^ 32 := by simpa [Instr.wellFormed] using h
    show t.toNat * 2 ^ 32 + l.toNat < 2 ^ 96
    omega

theorem idle : Statement .idle := fun f _ => by cases f <;> decide
theorem skipClosed : Statement .skipClosed := fun f _ => by cases f <;> decide
theorem skipNoavail : Statement .skipNoavail := fun f _ => by cases f <;> decide
theorem attShort : Statement .attShort := fun f _ => by cases f <;> decide
theorem attFallback : Statement .attFallback := fun f _ => by cases f <;> decide
theorem attFound : Statement .attFound := fun f _ => by cases f <;> decide
theorem halt : Statement .halt := fun f _ => by cases f <;> decide
theorem bootOk : Statement .bootOk := fun f _ => by cases f <;> decide
theorem fatalOpen : Statement .fatalOpen := fun f _ => by cases f <;> decide
theorem fatalClosed : Statement .fatalClosed := fun f _ => by cases f <;> decide
theorem wrreq : Statement .wrreq := fun f _ => by cases f <;> decide
theorem rdbuf : Statement .rdbuf := fun f _ => by cases f <;> decide
theorem lenchk : Statement .lenchk := fun f _ => by cases f <;> decide
theorem scan : Statement .scan := fun f _ => by cases f <;> decide
theorem asm32 : Statement .asm32 := fun f _ => by cases f <;> decide
theorem scale : Statement .scale := fun f _ => by cases f <;> decide
theorem stamp : Statement .stamp := fun f _ => by cases f <;> decide
theorem publish : Statement .publish := fun f _ => by cases f <;> decide

end Sys2Proof.Laws.NumberFits
end

