-- ==== Sys2Proof/Laws/Step.lean ====
section
/-! SUPPORT. What a step does for each thing it can take, and the run of one more step. -/

namespace Sys2Proof.Machine

variable {s : State}

theorem step_seq {w : FetchWord} (h : s.seq = some w) : step s = runWord w s.afterSeq := by
  simp [step, h]

theorem step_noInput (h : s.seq = none) (hi : s.env.inputs = []) : step s = .next (s.afterInput []) := by
  simp [step, h, hi]

theorem step_input {e : Input} {rest : List Input} (h : s.seq = none) (hi : s.env.inputs = e :: rest) :
    step s = takeInput e (s.afterInput rest) := by
  simp [step, h, hi]

theorem runWord_eq {w : FetchWord} {i : Instr} (h : decode w = .ok i) : runWord w s = exec i s := by
  simp [runWord, h]

theorem takeTick_ignored (t : TickIn) (h : s.mode ≠ .run) : takeTick t s = .next s := if_neg h

theorem takeTick_run (t : TickIn) (h : s.mode = .run) :
    takeTick t s = exec (tickInstr { s with tin := t }) { s with tin := t } := by
  rw [takeTick, if_pos h, runWord_eq (decode_tcwWord _)]

theorem takeRstInTick_ignored (t : TickIn) (done : Nat) (h : s.mode ≠ .run) :
    takeRstInTick t done s = .next (applyReset s) := if_neg h

theorem takeRstInTick_run (t : TickIn) (done : Nat) (h : s.mode = .run) :
    takeRstInTick t done s = cutTick done { s with tin := t } := if_pos h

theorem takeBoot_ignored (b : BootIn) (h : s.mode ≠ .boot) : takeBoot b s = .next s := if_neg h

/-- The boot sequence, R203. -/
theorem takeBoot_boot (b : BootIn) (h : s.mode = .boot) :
    takeBoot b s =
      .next (if b.openOk = false then raiseEvent .fatalOpen .fatal { s with bin := b }
        else if b.chOpen = false then raiseEvent .fatalClosed .fatal { s with bin := b }
        else raiseEvent .bootOk .run { s with bin := b }) := by
  obtain ⟨o, c⟩ := b
  rw [takeBoot, if_pos h, runWord_eq (decode_bootWord _)]
  cases o
  · exact exec_fatalOpen_eq h rfl
  · cases c
    · exact exec_fatalClosed_eq h rfl
    · exact exec_bootOk_eq h rfl

/-- A tick taken in RUN runs the outcome its condition word selects. -/
theorem step_tick {t : TickIn} {rest : List Input} (h : s.seq = none) (hi : s.env.inputs = .tick t :: rest)
    (hm : s.mode = .run) : step s = exec (tickInstr (s.tickState t rest)) (s.tickState t rest) := by
  rw [step_input h hi]
  exact takeTick_run t hm

/-- All that a tick taken in RUN can do. -/
theorem tick_cases {t : TickIn} {rest : List Input} (h : s.seq = none) (hi : s.env.inputs = .tick t :: rest)
    (hm : s.mode = .run) :
    (t.halt = true ∧ step s = .next (raiseEvent .halt .halted (s.tickState t rest))) ∨
    (t.halt = false ∧ t.chOpen = false ∧ step s = .next (afterClosed (s.tickState t rest))) ∨
    (t.halt = false ∧ t.chOpen = true ∧ s.cnt.val ≠ 9 ∧ step s = .next (endTick .idle (s.tickState t rest))) ∨
    (t.halt = false ∧ t.chOpen = true ∧ s.cnt.val = 9 ∧ t.rxAvail = 0 ∧
      step s = .next (afterNoavail (s.tickState t rest))) ∨
    (t.halt = false ∧ t.chOpen = true ∧ s.cnt.val = 9 ∧ t.rxAvail ≠ 0 ∧ t.answer.length < 9 ∧
      step s = .next (afterShort (s.tickState t rest))) ∨
    (t.halt = false ∧ t.chOpen = true ∧ s.cnt.val = 9 ∧ t.rxAvail ≠ 0 ∧ 9 ≤ t.answer.length ∧
      ∃ i f, Selected (readBuffer (s.tickState t rest)).buffer i f ∧
        step s = .next (afterDecoded (s.tickState t rest) i f)) := by
  have hx := exec_tickInstr (s := s.tickState t rest) hm
  rw [← step_tick h hi hm] at hx
  rcases hx with ⟨h1, -, h2⟩ | ⟨h1, h2, -, h3⟩ | ⟨h1, h2, h3, -, h4⟩ | ⟨h1, h2, h3, h4, -, h5⟩ |
    ⟨h1, h2, h3, h4, h5, -, h6⟩ | ⟨h1, h2, h3, h4, h5, i, f, h6, -, h7⟩
  · exact .inl ⟨h1, h2⟩
  · exact .inr (.inl ⟨h1, h2, h3⟩)
  · exact .inr (.inr (.inl ⟨h1, h2, h3, h4⟩))
  · exact .inr (.inr (.inr (.inl ⟨h1, h2, h3, h4, h5⟩)))
  · exact .inr (.inr (.inr (.inr (.inl ⟨h1, h2, h3, h4, h5, h6⟩))))
  · exact .inr (.inr (.inr (.inr (.inr ⟨h1, h2, h3, h4, h5, i, f, h6, h7⟩))))

/-- All that a reset in a tick can do, R200: the block is reset, and what is outside it has seen the first `done` of the
tick's operations. -/
theorem rstInTick_cases {t : TickIn} {done : Nat} {rest : List Input} (h : s.seq = none)
    (hi : s.env.inputs = .rstInTick t done :: rest) (hm : s.mode = .run) :
    ((t.halt = true ∨ t.chOpen = true ∧ s.cnt.val ≠ 9) ∧ step s = .next (resetInTick (s.tickState t rest))) ∨
    (t.halt = false ∧ t.chOpen = false ∧
      step s = .next (resetInTick (issued (s.tickState t rest) none none none (decide (1 ≤ done))))) ∨
    (t.halt = false ∧ t.chOpen = true ∧ s.cnt.val = 9 ∧ t.rxAvail = 0 ∧
      step s = .next (resetInTick (issued (s.tickState t rest)
        (if 1 ≤ done ∧ s.cfg.reqGate = .due then some Config.reqCmd else none) none none false))) ∨
    (t.halt = false ∧ t.chOpen = true ∧ s.cnt.val = 9 ∧ t.rxAvail ≠ 0 ∧ t.answer.length < 9 ∧
      step s = .next (resetInTick (attemptIssued 4 s.reading done (s.tickState t rest)))) ∨
    (t.halt = false ∧ t.chOpen = true ∧ s.cnt.val = 9 ∧ t.rxAvail ≠ 0 ∧ 9 ≤ t.answer.length ∧
      ∃ i f, Selected (readBuffer (s.tickState t rest)).buffer i f ∧
        step s = .next (resetInTick (attemptIssued 8
          ⟨t.now, q16ToFloat s.cfg.lenFmt (payloadAt (readBuffer (s.tickState t rest)).buffer i)⟩ done
          (s.tickState t rest)))) := by
  rw [(step_input h hi).trans (takeRstInTick_run t done hm)]
  exact cutTick_cases (s := s.tickState t rest) rfl done

/-- The buffer a tick's attempt leaves holds the bytes the tick read. -/
theorem buffer_tickState {t : TickIn} {rest : List Input} (h : Memory.wf s.rawbuf) :
    (readBuffer (s.tickState t rest)).buffer = t.answer :=
  buffer_readBuffer (s := s.tickState t rest) h

/-- All that a step with a next state can have done: run the word in `seq`, let an event go by or find none, reset between
ticks or in one, take bytes that arrived, run a boot event in BOOT, or run a tick outcome in RUN. -/
theorem step_next_cases {t : State} (h : step s = .next t) :
    (∃ w i, s.seq = some w ∧ decode w = .ok i ∧ exec i s.afterSeq = .next t) ∨
    (s.seq = none ∧
      (t = s.afterInput s.env.inputs.tail ∨ t = applyReset (s.afterInput s.env.inputs.tail) ∨
        (∃ b done, s.mode = .run ∧ cutTick done (s.tickState b s.env.inputs.tail) = .next t) ∨
        (∃ bs, t = arriveBytes bs (s.afterInput s.env.inputs.tail)) ∨
        (∃ b, s.mode = .boot ∧
          exec (bootEventOf b.openOk b.chOpen) (s.bootState b s.env.inputs.tail) = .next t) ∨
        (∃ b, s.mode = .run ∧
          exec (tickInstr (s.tickState b s.env.inputs.tail)) (s.tickState b s.env.inputs.tail) = .next t))) := by
  rcases hs : s.seq with _ | w
  · refine .inr ⟨rfl, ?_⟩
    rcases hin : s.env.inputs with _ | ⟨e, rest⟩
    · rw [step_noInput hs hin] at h
      cases h
      exact .inl rfl
    · rw [step_input hs hin] at h
      cases e with
      | rst => cases h; exact .inr (.inl rfl)
      | rstInTick b done =>
        by_cases hm : s.mode = .run
        · exact .inr (.inr (.inl ⟨b, done, hm, (takeRstInTick_run (s := s.afterInput rest) b done hm).symm.trans h⟩))
        · cases (takeRstInTick_ignored (s := s.afterInput rest) b done hm).symm.trans h
          exact .inr (.inl rfl)
      | arrive bs => cases h; exact .inr (.inr (.inr (.inl ⟨bs, rfl⟩)))
      | boot b =>
        by_cases hm : s.mode = .boot
        · refine .inr (.inr (.inr (.inr (.inl ⟨b, hm, ?_⟩))))
          change takeBoot b (s.afterInput rest) = _ at h
          rw [takeBoot, if_pos (show (s.afterInput rest).mode = .boot from hm), runWord_eq (decode_bootWord _)] at h
          exact h
        · cases (takeBoot_ignored (s := s.afterInput rest) b hm).symm.trans h
          exact .inl rfl
      | tick b =>
        by_cases hm : s.mode = .run
        · exact .inr (.inr (.inr (.inr (.inr ⟨b, hm, (takeTick_run (s := s.afterInput rest) b hm).symm.trans h⟩))))
        · cases (takeTick_ignored (s := s.afterInput rest) b hm).symm.trans h
          exact .inl rfl
  · rw [step_seq hs] at h
    simp only [runWord] at h
    split at h
    · exact .inl ⟨w, _, rfl, by assumption, h⟩
    · cases h

/-- A run of one step more. -/
theorem run_succ {n : Nat} {t : State} (h : step s = .next t) :
    Host.Core.run Sys2Proof.core (n + 1) s = Host.Core.run Sys2Proof.core n t := by
  have hs : Sys2Proof.core.step s = .next t := h
  simp only [Host.Core.run, hs]

@[simp] theorem run_zero : Host.Core.run Sys2Proof.core 0 s = .next s := rfl

end Sys2Proof.Machine
end

