-- ==== Sys2Proof/Tests/Slice0.lean ====
section
/-! SUPPORT. Tests: expected values are those of 95_test_vectors.md (named V-… or P… below) or worked out by hand from the
rule named. Then, for every obligation with hypotheses, a concrete state and operands that meet them. -/

namespace Sys2Proof.Tests

open Sys2Proof.Machine

/-! ### Helpers -/

/-- The next state of an outcome, if it is one. -/
def nextOf (o : Host.Outcome State Fault Refusal) : Option State :=
  match o with
  | .next t => some t
  | .fault _ | .refused _ => none

/-- A state of the given mode and counter with events to come. -/
def mk (m : Mode) (c : Fin Config.cycleLen) (es : List Input) : State :=
  { State.reset with mode := m, cnt := c, env := ⟨es, [], [], []⟩ }

/-- A running state with a tick's record sampled. -/
def sampled (c : Fin Config.cycleLen) (t : TickIn) : State := { mk .run c [] with tin := t }

/-- A state whose buffer holds the bytes. -/
def holding (bs : List Byte) : State :=
  { mk .run 0 [] with rawbuf := Memory.write [] 0 bs, rawlen := bs.length }

/-- The buffers of V-SCAN-1, V-SCAN-2, V-SCAN-3, V-SCAN-5 and the noise of T5. -/
def scan1 : List Byte := [0x01, 0x03, 0x04, 0x00, 0x01, 0x00, 0x00, 0xAA, 0xBB]
def scan2 : List Byte := [0xDE, 0xAD, 0xBE, 0x01, 0x03, 0x04, 0x00, 0x02, 0x80, 0x00, 0x55, 0x66]
def scan3 : List Byte := [0x10, 0x20, 0x30, 0x40, 0x50, 0x60, 0x70, 0x12, 0x34, 0x56, 0x78, 0x90]
def scan4 : List Byte := [0x77, 0x01, 0x03, 0x04, 0x00, 0x01, 0x00, 0x00, 0x99]
def scan5 : List Byte := [0x77, 0x77, 0x01, 0x03, 0x04, 0x00, 0x01, 0x00, 0x00]

/-- A tick of an open channel that has `bs` ready, at 100.0 seconds. -/
def ready (bs : List Byte) : TickIn := ⟨false, true, bs.length, bs, 0x4059000000000000#64⟩

/-- An open channel with nothing ready, a closed one, and the shutdown signal. -/
def empty : TickIn := ⟨false, true, 0, [], 0⟩
def closed : TickIn := ⟨false, false, 9, scan1, 0⟩
def shutdown : TickIn := ⟨true, false, 0, [], 0⟩

/-! ### Well-formedness: the one check (R79) -/

theorem test_wf_refuses_wide_binary32_length :
    (Instr.reading 0#64 0x100000000#64).wellFormed .binary32 = false ∧
      (Instr.reading 0#64 0xFFFFFFFF#64).wellFormed .binary32 = true := by decide

/-! ### Decoding: words written out from 30_encoding.md's tables and V-ENC -/

theorem test_decode_req : decode ⟨.req, [0x01, 0x03, 0x00, 0x00, 0x00, 0x02, 0xC4, 0x0B]⟩ = .ok .req := by decide
theorem test_decode_resp :
    decode ⟨.resp, [0x01, 0x03, 0x04, 0x00, 0x02, 0x80, 0x00]⟩ = .ok (.resp 0x00028000#32) := by decide
theorem test_decode_noise :
    decode ⟨.resp, [0x01, 0x83, 0x02, 0x00, 0x02, 0x80, 0x00]⟩ = .error .notMarker := by decide
/-- V-PUB-1 as bits, in both formats. -/
theorem test_decode_reading :
    decode ⟨.reading .binary64, [0x40, 0x59, 0, 0, 0, 0, 0, 0, 0x3F, 0xF0, 0, 0, 0, 0, 0, 0]⟩ =
      .ok (.reading 0x4059000000000000#64 0x3FF0000000000000#64) ∧
    decode ⟨.reading .binary32, [0x40, 0x59, 0, 0, 0, 0, 0, 0, 0x3F, 0x80, 0, 0]⟩ =
      .ok (.reading 0x4059000000000000#64 0x3F800000#64) := by decide
theorem test_decode_idle : decode ⟨.tcw, [0b010111]⟩ = .ok .idle ∧ decode ⟨.tcw, [0b010000]⟩ = .ok .idle := by decide
theorem test_decode_skipClosed :
    decode ⟨.tcw, [0b001111]⟩ = .ok .skipClosed ∧ decode ⟨.tcw, [0b000000]⟩ = .ok .skipClosed := by decide
theorem test_decode_skipNoavail : decode ⟨.tcw, [0b011011]⟩ = .ok .skipNoavail := by decide
theorem test_decode_attShort : decode ⟨.tcw, [0b011101]⟩ = .ok .attShort := by decide
theorem test_decode_attFallback : decode ⟨.tcw, [0b011110]⟩ = .ok .attFallback := by decide
theorem test_decode_attFound : decode ⟨.tcw, [0b011111]⟩ = .ok .attFound := by decide
theorem test_decode_halt : decode ⟨.tcw, [0b111111]⟩ = .ok .halt ∧ decode ⟨.tcw, [0b100000]⟩ = .ok .halt := by decide
theorem test_decode_tcw_reserved : decode ⟨.tcw, [0b01011111]⟩ = .error .reservedBits := by decide
theorem test_decode_bootOk : decode ⟨.boot, [0b11]⟩ = .ok .bootOk := by decide
theorem test_decode_fatalOpen :
    decode ⟨.boot, [0b00]⟩ = .ok .fatalOpen ∧ decode ⟨.boot, [0b01]⟩ = .ok .fatalOpen := by decide
theorem test_decode_fatalClosed : decode ⟨.boot, [0b10]⟩ = .ok .fatalClosed := by decide
theorem test_decode_wrreq : decode ⟨.uop, [0b000]⟩ = .ok .wrreq := by decide
theorem test_decode_rdbuf : decode ⟨.uop, [0b001]⟩ = .ok .rdbuf := by decide
theorem test_decode_lenchk : decode ⟨.uop, [0b010]⟩ = .ok .lenchk := by decide
theorem test_decode_scan : decode ⟨.uop, [0b011]⟩ = .ok .scan := by decide
theorem test_decode_asm32 : decode ⟨.uop, [0b100]⟩ = .ok .asm32 := by decide
theorem test_decode_scale : decode ⟨.uop, [0b101]⟩ = .ok .scale := by decide
theorem test_decode_stamp : decode ⟨.uop, [0b110]⟩ = .ok .stamp := by decide
theorem test_decode_publish : decode ⟨.uop, [0b111]⟩ = .ok .publish := by decide

/-! ### The micro-operations and the formats, one step each -/

theorem test_wrreq : (nextOf (exec .wrreq State.reset)).map (fun t => (t.out.tx, t.env.sent)) =
    some (some [0x01, 0x03, 0x00, 0x00, 0x00, 0x02, 0xC4, 0x0B], [0x01, 0x03, 0x00, 0x00, 0x00, 0x02, 0xC4, 0x0B]) := by
  decide

/-- R108's example, and V-SCH-9's size of the read. -/
theorem test_rdbuf : (nextOf (exec .rdbuf (sampled 9 (ready scan2)))).map
    (fun t => (t.rawlen, Memory.get t.rawbuf 0, Memory.get t.rawbuf 11)) = some (12, 0xDE, 0x66) := by decide
theorem test_rdbuf_capped : (nextOf (exec .rdbuf (sampled 9 ⟨false, true, 2000, scan1, 0⟩))).map
    (fun t => (t.out.rdReq, t.rawlen)) = some (some 1024, 9) := by decide

/-- V-LEN-3 and V-LEN-4. -/
theorem test_lenchk_8 :
    (nextOf (exec .lenchk { holding (scan1.take 8) with decOk := true })).map (·.decOk) = some false := by decide
theorem test_lenchk_9 :
    (nextOf (exec .lenchk { holding scan1 with decOk := true })).map (·.decOk) = some true := by decide

/-- V-SCAN-2 and V-SCAN-5: a marker at `L - 7` is missed. -/
theorem test_scan_found :
    (nextOf (exec .scan (holding scan2))).map (fun t => (t.idx, t.syncFound)) = some (3, true) := by decide
theorem test_scan_fallback :
    (nextOf (exec .scan (holding scan5))).map (fun t => (t.idx, t.syncFound)) = some (1, false) := by decide

/-- V-SCAN-2 and V-SCAN-5. -/
theorem test_asm32 : (nextOf (exec .asm32 { holding scan2 with idx := 3 })).map (·.value) = some 0x00028000#32 := by
  decide
theorem test_asm32_fallback :
    (nextOf (exec .asm32 { holding scan5 with idx := 1 })).map (·.value) = some 0x04000100#32 := by decide

/-- V-SCL-13, V-SCL-19, V-SCL-10, V-SCL-12, V-SCL-16 and V-SCL-17. -/
theorem test_scale_binary64 : q16ToFloat .binary64 0x12345678#32 = 0x40B2345678000000#64 ∧
    q16ToFloat .binary64 0xFFFFFFFF#32 = 0x40EFFFFFFFE00000#64 ∧ q16ToFloat .binary64 0#32 = 0#64 := by decide
theorem test_scale_binary32 : q16ToFloat .binary32 0x01000001#32 = 0x43800000#64 ∧
    q16ToFloat .binary32 0x01000003#32 = 0x43800002#64 ∧ q16ToFloat .binary32 0xFFFFFF7F#32 = 0x477FFFFF#64 ∧
    q16ToFloat .binary32 0xFFFFFF80#32 = 0x47800000#64 ∧ q16ToFloat .binary32 0x00FFFFFF#32 = 0x437FFFFF#64 := by
  decide

/-- R148's example. -/
theorem test_stamp : (nextOf (exec .stamp { sampled 9 ⟨false, true, 9, [], 0x41D954FC40100000#64⟩ with
    len := 0x4004000000000000#64 })).map (fun t => (t.reading, t.decOk)) =
      some (⟨0x41D954FC40100000#64, 0x4004000000000000#64⟩, true) := by decide

/-- R160's example. -/
theorem test_publish : (nextOf (exec .publish { State.reset with
    reading := ⟨0x41D954FC40100000#64, 0x4004000000000000#64⟩ })).map (fun t => t.env.sink) =
      some [⟨0x41D954FC40100000#64, 0x4004000000000000#64⟩] := by decide

theorem test_req : (nextOf (exec .req State.reset)).map (·.env.sent) =
    some [0x01, 0x03, 0x00, 0x00, 0x00, 0x02, 0xC4, 0x0B] := by decide
theorem test_resp : (nextOf (exec (.resp 0x00028000#32) State.reset)).map (fun t => (t.value, t.syncFound)) =
    some (0x00028000#32, true) := by decide
theorem test_reading : (nextOf (exec (.reading 1#64 2#64) State.reset)).map (·.env.sink) = some [⟨1#64, 2#64⟩] := by
  decide

/-! ### The tick outcomes, one step each -/

/-- V-SCH-2: nothing is read, the counter advances. -/
theorem test_idle : (nextOf (step (mk .run 8 [.tick ⟨false, true, 500, [], 0⟩]))).map (fun t => (t.cnt.val, t.out)) =
    some (9, ⟨some .idle, none, none, none, false⟩) := by decide

/-- V-SCH-5. -/
theorem test_skipClosed : (nextOf (step (mk .run 9 [.tick closed]))).map (fun t => (t.cnt.val, t.out)) =
    some (0, ⟨some .skipClosed, none, none, none, true⟩) := by decide

/-- V-SCH-3, under both gates (P5). -/
theorem test_skipNoavail : (nextOf (step (mk .run 9 [.tick empty]))).map (fun t => (t.cnt.val, t.out)) =
    some (0, ⟨some .skipNoavail, none, none, none, false⟩) := by decide
theorem test_skipNoavail_due :
    (nextOf (step { mk .run 9 [.tick empty] with cfg := ⟨.due, .binary64⟩ })).map (·.out) =
      some ⟨some .skipNoavail, some [0x01, 0x03, 0x00, 0x00, 0x00, 0x02, 0xC4, 0x0B], none, none, false⟩ := by decide

/-- P2, T9: the reset Reading is published. -/
theorem test_attShort :
    (nextOf (step { mk .run 9 [.tick (ready [0x01, 0x03, 0x04, 0x00, 0x01])] with decOk := true })).map
      (fun t => (t.out, t.decOk)) =
      some (⟨some .attShort, some [0x01, 0x03, 0x00, 0x00, 0x00, 0x02, 0xC4, 0x0B], some 5, some ⟨0#64, 0#64⟩, false⟩,
        false) := by decide

/-- V-PUB-4 and P4. -/
theorem test_attFallback :
    (nextOf (step (mk .run 9 [.tick { ready scan3 with now := 0x4079000000000000#64 }]))).map
      (fun t => (t.out.outcome, t.out.pub, t.idx, t.syncFound, t.value)) =
      some (some .attFallback, some ⟨0x4079000000000000#64, 0x40B2345678000000#64⟩, 4, false, 0x12345678#32) := by
  decide

/-- V-PUB-1 and P1, T9. -/
theorem test_attFound : (nextOf (step (mk .run 9 [.tick (ready scan1)]))).map
    (fun t => (t.out.outcome, t.out.rdReq, t.out.pub, t.cnt.val, t.decOk)) =
      some (some .attFound, some 9, some ⟨0x4059000000000000#64, 0x3FF0000000000000#64⟩, 0, true) := by decide

/-- The same with `LEN_FMT = BINARY32`: the 96-bit record of 95_test_vectors.md section 2.5. -/
theorem test_attFound_binary32 :
    (nextOf (step { mk .run 9 [.tick (ready scan1)] with cfg := ⟨.avail, .binary32⟩ })).map (·.out.pub) =
      some (some ⟨0x4059000000000000#64, 0x3F800000#64⟩) := by decide

/-- V-SCH-8: before the closed test. -/
theorem test_halt : (nextOf (step (mk .run 9 [.tick shutdown]))).map (fun t => (t.mode, t.cnt.val, t.out)) =
    some (.halted, 9, ⟨some .halt, none, none, none, false⟩) := by decide

/-! ### Boot, reset and the terminal modes -/

/-- V-BOOT-1, V-BOOT-3 and V-BOOT-4. -/
theorem test_bootOk : (nextOf (step (mk .boot 0 [.boot ⟨true, true⟩]))).map (·.mode) = some .run := by decide
theorem test_fatalOpen :
    (nextOf (step (mk .boot 0 [.boot ⟨false, true⟩]))).map (fun t => (t.mode, t.out.outcome)) =
      some (.fatal, some .fatalOpen) := by decide
theorem test_fatalClosed :
    (nextOf (step (mk .boot 0 [.boot ⟨true, false⟩]))).map (fun t => (t.mode, t.out.outcome)) =
      some (.fatal, some .fatalClosed) := by decide

/-- P6: a tick in FATAL leaves no trace. -/
theorem test_fatal_tick : (nextOf (step (mk .fatal 0 [.tick (ready scan1)]))).map (fun t => (t.mode, t.cnt.val, t.out)) =
    some (.fatal, 0, TickOut.none) := by decide

/-- V-BOOT-5. -/
theorem test_rst : (nextOf (step { mk .halted 4 [.rst] with reading := ⟨1#64, 1#64⟩ })).map
    (fun t => (t.mode, t.cnt.val, t.reading)) = some (.boot, 0, ⟨0#64, 0#64⟩) := by decide

/-- What a reset after `n` operations of a tick leaves outside the block: the bytes unread, and what was sent and
published. -/
def cut (t : TickIn) (n : Nat) : Option (Nat × Nat × List Reading) :=
  (nextOf (step { mk .run 9 [] with env := ⟨[.rstInTick t n], scan1, [], []⟩ })).map fun u =>
    (u.env.rxq.length, u.env.sent.length, u.env.sink)

/-- R200 on the tick of P1: cut before it starts, after the request, after the read, and about the publish (R63's order). -/
theorem test_rst_in_attempt :
    cut (ready scan1) 0 = some (9, 0, []) ∧ cut (ready scan1) 1 = some (9, 8, []) ∧
    cut (ready scan1) 2 = some (0, 8, []) ∧ cut (ready scan1) 7 = some (0, 8, []) ∧
    cut (ready scan1) 8 = some (0, 8, [⟨0x4059000000000000#64, 0x3FF0000000000000#64⟩]) := by decide

/-- R200 on a closed tick, before and after its pulse; the counter does not advance but is reset. -/
theorem test_rst_in_skipClosed :
    (nextOf (step (mk .run 5 [.rstInTick closed 0]))).map (fun t => (t.mode, t.cnt.val, t.out)) =
      some (.boot, 0, TickOut.none) ∧
    (nextOf (step (mk .run 5 [.rstInTick closed 1]))).map (fun t => (t.mode, t.cnt.val, t.out)) =
      some (.boot, 0, ⟨none, none, none, none, true⟩) := by decide

/-! ### Words placed for the next step -/

/-- What the word's step from reset reports: the outcome and the mode. -/
def placed (nbits w : Nat) : Option (Option Label × Mode) :=
  (nextOf (step (State.reset.withFetchWord nbits w))).map fun t => (t.out.outcome, t.mode)

/-- The bytes sent and the records published by the word's step from reset. -/
def placedOut (nbits w : Nat) : Option (List Byte × List Reading) :=
  (nextOf (step (State.reset.withFetchWord nbits w))).map fun t => (t.env.sent, t.env.sink)

theorem test_placed_tcw :
    placed 8 0x10 = some (some .idle, .run) ∧ placed 8 0x1F = some (some .attFound, .run) ∧
    placed 8 0x1D = some (some .attShort, .run) ∧ placed 8 0x1E = some (some .attFallback, .run) ∧
    placed 8 0x1B = some (some .skipNoavail, .run) ∧ placed 8 0x0F = some (some .skipClosed, .run) ∧
    placed 8 0x3F = some (some .halt, .halted) := by decide

theorem test_placed_boot :
    placed 8 0x3 = some (some .bootOk, .run) ∧ placed 8 0x0 = some (some .fatalOpen, .fatal) ∧
    placed 8 0x2 = some (some .fatalClosed, .fatal) := by decide

theorem test_placed_uop :
    placedOut 3 0 = some ([0x01, 0x03, 0x00, 0x00, 0x00, 0x02, 0xC4, 0x0B], []) ∧
    (nextOf (step (State.reset.withFetchWord 3 3))).map (fun t => (t.idx, t.rawlen)) = some (1, 9) ∧
    (nextOf (step (State.reset.withFetchWord 8 4))).map (·.value) = some 0#32 ∧
    placedOut 8 7 = some ([], [⟨0#64, 0#64⟩]) := by decide

theorem test_placed_formats :
    placedOut 64 0x010300000002C40B = some ([0x01, 0x03, 0x00, 0x00, 0x00, 0x02, 0xC4, 0x0B], []) ∧
    (nextOf (step (State.reset.withFetchWord 56 0x01030400028000))).map (·.value) = some 0x00028000#32 ∧
    placedOut 128 (2 ^ 64 + 2) = some ([], [⟨1#64, 2#64⟩]) := by decide

theorem test_table_word : decodeTableWord 64 0x010300000002C40B = some .req ∧
    decodeTableWord 56 0x01030400028000 = some (.resp 0x00028000#32) ∧ decodeTableWord 8 0x1F = some .attFound ∧
    decodeTableWord 8 5 = some .scale ∧ decodeTableWord 8 0x40 = none ∧ decodeTableWord 3 2 = some .lenchk ∧
    decodeTableWord 6 0 = some .skipClosed := by decide

/-! ### Witnesses: the hypotheses of each obligation, clause by clause, met by a concrete state -/

/-- Nine bytes with no marker at offsets 0 and 1. -/
theorem noMarker_scan5 : NoMarker scan5 := by
  intro j hj
  have : j ≤ 1 := by simp [scan5] at hj; omega
  interval_cases j <;> (unfold MarkerAt; decide)

theorem firstMarker_scan1 : FirstMarker scan1 0 := by unfold FirstMarker MarkerAt; decide

/-- The marker at the last offset examined, V-SCAN-4. -/
theorem firstMarker_scan4 : FirstMarker scan4 1 := by unfold FirstMarker MarkerAt; decide

/-- A due tick about to read `bs`. -/
def due9 (bs : List Byte) : State := sampled 9 (ready bs)

theorem test_witness_DecodeOfEncode : (Instr.reading 1#64 0xFFFFFFFF#64).wellFormed .binary32 = true := by decide
theorem test_witness_EncodeOfDecode :
    decode ⟨.req, [0x01, 0x03, 0x00, 0x00, 0x00, 0x02, 0xC4, 0x0B]⟩ = .ok .req ∧
    decode ⟨.resp, [0x01, 0x03, 0x04, 0xFF, 0xFF, 0xFF, 0xFF]⟩ = .ok (.resp 0xFFFFFFFF#32) ∧
    decode ⟨.reading .binary32, [0, 0, 0, 0, 0, 0, 0, 1, 0xFF, 0xFF, 0xFF, 0xFF]⟩ =
      .ok (.reading 1#64 0xFFFFFFFF#64) ∧
    decode ⟨.uop, [7]⟩ = .ok .publish := by decide
theorem test_witness_FramesMatchTheirMasks : 0x010300000002C40B < 2 ^ 64 ∧ 0x010304FFFFFFFF < 2 ^ 56 := by decide
theorem test_witness_RdbufStoresTheAnswer : Memory.wf (holding scan2).rawbuf := by decide
theorem test_witness_LenchkClearsOnlyOnShort : (holding (scan1.take 8)).rawlen < 9 ∧ 9 ≤ (holding scan1).rawlen := by
  decide
theorem test_witness_ScanSelectsFirstMarkerOrFallback :
    (9 ≤ (holding scan1).rawlen ∧ (holding scan1).rawlen ≤ 1024) ∧
    9 ≤ ({ State.reset with rawlen := 1024 } : State).rawlen ∧
      ({ State.reset with rawlen := 1024 } : State).rawlen ≤ 1024 := by decide
theorem test_witness_ScanStopsBelowNine : (holding (scan1.take 8)).rawlen < 9 := by decide
theorem test_witness_Asm32IsBigEndian :
    (holding scan5).idx + 7 ≤ (holding scan5).rawlen ∧ (holding scan5).rawlen ≤ 1024 ∧
    ({ State.reset with rawlen := 1024, idx := 1017 } : State).idx + 7 ≤ 1024 := by decide
theorem test_witness_Asm32StopsOutOfBounds :
    ¬ (({ State.reset with rawlen := 9, idx := 3 } : State).idx + 7 ≤
        ({ State.reset with rawlen := 9, idx := 3 } : State).rawlen ∧
      ({ State.reset with rawlen := 9, idx := 3 } : State).idx + 7 ≤ 1024) := by decide
theorem test_witness_U32beIsABijection : u32be 0xFF 0 0x80 1 = u32be 0xFF 0 0x80 1 := rfl
theorem test_witness_ScaleDividesBy65536 : State.reset.cfg.lenFmt = .binary64 := rfl
theorem test_witness_ResponseRowIsWhatAsm32Reads :
    memRead { holding scan1 with syncFound := true } 0 7 = some [0x01, 0x03, 0x04, 0x00, 0x01, 0x00, 0x00] ∧
    decode ⟨.resp, [0x01, 0x03, 0x04, 0x00, 0x01, 0x00, 0x00]⟩ = .ok (.resp 0x00010000#32) ∧
    ({ holding scan1 with syncFound := true } : State).syncFound = true := by decide

theorem test_witness_ReadingRowIsTheRecordPublished : (0xFFFFFFFF#64 : FloatBits).toNat < 2 ^ 32 := by decide
theorem test_witness_WordsOfTheTablesDecode : 64 ≤ 64 ∧ 4 ≤ 4 ∧ 8 ≤ 8 ∧ 255 < 256 := by decide

theorem test_witness_IdleOnlyAdvances :
    ∀ c : Fin Config.cycleLen, c.val ≠ 9 → (sampled c empty).mode = .run ∧ (sampled c empty).tin.halt = false ∧
      (sampled c empty).tin.chOpen = true ∧ (sampled c empty).cnt.val ≠ 9 := by decide
theorem test_witness_SkipClosedPulsesAndAdvances :
    (sampled 9 closed).mode = .run ∧ (sampled 9 closed).tin.halt = false ∧ (sampled 9 closed).tin.chOpen = false ∧
    (sampled 8 closed).mode = .run ∧ (sampled 8 closed).tin.halt = false ∧
      (sampled 8 closed).tin.chOpen = false := by decide
theorem test_witness_SkipNoavailWritesOnlyUnderDue :
    (sampled 9 empty).mode = .run ∧ (sampled 9 empty).tin.halt = false ∧ (sampled 9 empty).tin.chOpen = true ∧
    (sampled 9 empty).cnt.val = 9 ∧ (sampled 9 empty).tin.rxAvail = 0 ∧ (sampled 9 empty).cfg.reqGate = .avail ∧
    ({ sampled 9 empty with cfg := ⟨.due, .binary64⟩ } : State).cfg.reqGate = .due := by decide
theorem test_witness_AttShortRepublishes :
    (Memory.wf (due9 (scan1.take 8)).rawbuf ∧ (due9 (scan1.take 8)).mode = .run ∧
      (due9 (scan1.take 8)).tin.halt = false ∧ (due9 (scan1.take 8)).tin.chOpen = true ∧
      (due9 (scan1.take 8)).cnt.val = 9 ∧ (due9 (scan1.take 8)).tin.rxAvail ≠ 0 ∧
      (due9 (scan1.take 8)).tin.answer.length < 9) ∧
    (TickIn.answer ⟨false, true, 1, [], 0⟩).length < 9 ∧ (TickIn.answer ⟨false, true, 1, scan1, 0⟩).length < 9 := by
  decide
theorem test_witness_AttFoundDecodesTheFirstFrame :
    (Memory.wf (due9 scan4).rawbuf ∧ (due9 scan4).mode = .run ∧ (due9 scan4).tin.halt = false ∧
      (due9 scan4).tin.chOpen = true ∧ (due9 scan4).cnt.val = 9 ∧ (due9 scan4).tin.rxAvail ≠ 0 ∧
      9 ≤ (due9 scan4).tin.answer.length) ∧ FirstMarker (due9 scan4).tin.answer 1 ∧
      FirstMarker (due9 scan1).tin.answer 0 :=
  ⟨by decide, firstMarker_scan4, firstMarker_scan1⟩
theorem test_witness_AttFallbackDecodesAtLMinus8 :
    (Memory.wf (due9 scan5).rawbuf ∧ (due9 scan5).mode = .run ∧ (due9 scan5).tin.halt = false ∧
      (due9 scan5).tin.chOpen = true ∧ (due9 scan5).cnt.val = 9 ∧ (due9 scan5).tin.rxAvail ≠ 0 ∧
      9 ≤ (due9 scan5).tin.answer.length) ∧ NoMarker (due9 scan5).tin.answer :=
  ⟨by decide, noMarker_scan5⟩
theorem test_witness_HaltOnlyEntersHalted :
    (sampled 9 shutdown).mode = .run ∧ (sampled 9 shutdown).tin.halt = true := by decide
theorem test_witness_ExactlyOneOutcomeRuns :
    (mk .run 0 []).mode = .run ∧ (mk .fatal 0 []).mode ≠ .run ∧ (mk .boot 0 []).mode = .boot ∧
      (mk .halted 0 []).mode ≠ .boot := by decide
theorem test_witness_AttemptIsItsMicroOperations :
    (nextOf (exec .attShort (due9 (scan1.take 8)))).isSome = true ∧ (nextOf (exec .attFound (due9 scan4))).isSome = true ∧
      (nextOf (exec .attFallback (due9 scan5))).isSome = true := by decide
theorem test_witness_BootEventsSetTheMode :
    (mk .boot 0 []).mode = .boot ∧
    (({ mk .boot 0 [] with bin := ⟨true, true⟩ } : State).bin.openOk = true ∧
      ({ mk .boot 0 [] with bin := ⟨true, true⟩ } : State).bin.chOpen = true) ∧
    ({ mk .boot 0 [] with bin := ⟨false, true⟩ } : State).bin.openOk = false ∧
    ({ mk .boot 0 [] with bin := ⟨true, false⟩ } : State).bin.openOk = true ∧
      ({ mk .boot 0 [] with bin := ⟨true, false⟩ } : State).bin.chOpen = false := by decide
theorem test_witness_BootStepFollowsTheTwoChecks :
    (mk .boot 0 [.boot ⟨true, false⟩]).seq = none ∧
    (mk .boot 0 [.boot ⟨true, false⟩]).env.inputs = .boot ⟨true, false⟩ :: [] ∧
    (mk .boot 0 [.boot ⟨true, false⟩]).mode = .boot ∧ (mk .run 0 [.boot ⟨true, false⟩]).mode ≠ .boot := by decide
theorem test_witness_ResetStepRestoresTheBlock :
    (mk .halted 3 [.rst]).seq = none ∧ (mk .halted 3 [.rst]).env.inputs = .rst :: [] := by decide

/-- One state for the common hypotheses, and for each clause a tick that meets its own: a mode that is not RUN, HALT, a
closed channel, a counter that is not 9, no bytes, and the two lengths of an attempt at a cut just before and at its publish. -/
theorem test_witness_ResetInATickDropsItsRemainingEvents :
    (∀ t n, (mk .run 9 [.rstInTick t n]).seq = none ∧
      (mk .run 9 [.rstInTick t n]).env.inputs = .rstInTick t n :: [] ∧ (mk .run 9 [.rstInTick t n]).mode = .run ∧
      (mk .run 9 [.rstInTick t n]).cnt.val = 9) ∧
    Memory.wf (mk .run 9 []).rawbuf ∧
    (mk .fatal 9 [.rstInTick closed 1]).mode ≠ .run ∧ shutdown.halt = true ∧
    (closed.halt = false ∧ closed.chOpen = false) ∧
    (empty.halt = false ∧ empty.chOpen = true ∧ (mk .run 8 [.rstInTick empty 1]).cnt.val ≠ 9 ∧ empty.rxAvail = 0) ∧
    ((ready (scan1.take 8)).halt = false ∧ (ready (scan1.take 8)).chOpen = true ∧ (ready (scan1.take 8)).rxAvail ≠ 0 ∧
      (ready (scan1.take 8)).answer.length < 9) ∧
    ((ready scan4).halt = false ∧ (ready scan4).chOpen = true ∧ (ready scan4).rxAvail ≠ 0 ∧
      9 ≤ (ready scan4).answer.length) ∧
    Selected (ready scan4).answer 1 true ∧ Selected (ready scan5).answer 1 false ∧
    (¬ 4 ≤ 3 ∧ 4 ≤ 4) ∧ ¬ 8 ≤ 7 ∧ 8 ≤ 8 :=
  ⟨fun _ _ => ⟨rfl, rfl, rfl, rfl⟩, by decide, by decide, by decide, by decide, by decide, by decide, by decide,
    .inl ⟨rfl, firstMarker_scan4⟩, .inr ⟨rfl, noMarker_scan5, by decide⟩, by decide, by decide, by decide⟩

theorem test_witness_StepRunsTheDecodedInstruction :
    (({ State.reset with seq := some ⟨.uop, [7]⟩ } : State).seq = some ⟨.uop, [7]⟩ ∧
      decode ⟨.uop, [7]⟩ = .ok .publish) ∧
    ((mk .run 9 [.tick (ready scan1)]).seq = none ∧
      (mk .run 9 [.tick (ready scan1)]).env.inputs = .tick (ready scan1) :: [] ∧
      (mk .run 9 [.tick (ready scan1)]).mode = .run ∧
      decode (tcwWord ((mk .run 9 [.tick (ready scan1)]).tickState (ready scan1) [])) = .ok .attFound) ∧
    (mk .boot 0 [.boot ⟨true, true⟩]).seq = none ∧
      (mk .boot 0 [.boot ⟨true, true⟩]).env.inputs = .boot ⟨true, true⟩ :: [] ∧
      (mk .boot 0 [.boot ⟨true, true⟩]).mode = .boot ∧
      decode (bootWord ((mk .boot 0 [.boot ⟨true, true⟩]).bootState ⟨true, true⟩ [])) = .ok .bootOk := by decide
theorem test_witness_PlacedWordRunsNext :
    decode ⟨.uop, [3]⟩ = .ok .scan ∧ decode ⟨.req, [0x01, 0x03, 0x00, 0x00, 0x00, 0x02, 0xC4, 0x0B]⟩ = .ok .req ∧
    decode ⟨.boot, [2]⟩ = .ok .fatalClosed ∧
    (decode ⟨.tcw, [0x1F]⟩ = .ok .attFound ∧ Memory.wf (holding scan2).rawbuf) := by decide
theorem test_witness_EveryInputHasANextState : State.reset.seq = none := rfl
theorem test_witness_TickOutsideRunIsIgnored :
    ∀ m ∈ [Mode.boot, .fatal, .halted], (mk m 0 [.tick closed]).seq = none ∧
      (mk m 0 [.tick closed]).env.inputs = .tick closed :: [] ∧ (mk m 0 [.tick closed]).mode ≠ .run := by decide
theorem test_witness_BlockActsOnlyOnItsEvents :
    (mk .run 0 [.arrive scan1]).seq = none ∧ (mk .run 0 [.arrive scan1]).env.inputs = .arrive scan1 :: [] ∧
      (mk .run 0 []).env.inputs = [] := by decide

/-- One state for the statements about a tick in RUN: the hypotheses common to them, for any tick. -/
theorem test_witness_tick (t : TickIn) :
    Memory.wf (mk .run 9 [.tick t]).rawbuf ∧ (mk .run 9 [.tick t]).seq = none ∧
      (mk .run 9 [.tick t]).env.inputs = .tick t :: [] ∧ (mk .run 9 [.tick t]).mode = .run ∧
      (mk .run 9 [.tick t]).cnt.val = 9 :=
  ⟨⟨List.Pairwise.nil, by simp [mk, State.reset]⟩, rfl, rfl, rfl, rfl⟩
theorem test_witness_TickPriorityIsFixed :
    shutdown.halt = true ∧ (closed.halt = false ∧ closed.chOpen = false) ∧
    (empty.halt = false ∧ empty.chOpen = true ∧ (mk .run 8 []).cnt.val ≠ 9 ∧ empty.rxAvail = 0) ∧
    ((ready (scan1.take 8)).rxAvail ≠ 0 ∧ (ready (scan1.take 8)).answer.length < 9) ∧
    (9 ≤ (ready scan5).answer.length ∧ NoMarker (ready scan5).answer) ∧
    9 ≤ (ready scan4).answer.length ∧ ∃ i, FirstMarker (ready scan4).answer i :=
  ⟨by decide, by decide, by decide, by decide, ⟨by decide, noMarker_scan5⟩, by decide, 1, firstMarker_scan4⟩
theorem test_witness_EveryTickAdvancesTheCounter : empty.halt = false ∧ shutdown.halt = true := by decide
theorem test_witness_RequestWrittenExactlyWhen :
    (empty.halt = false ∧ empty.chOpen = true ∧ (sampled 9 empty).cnt.val = 9 ∧
      (empty.rxAvail ≠ 0 ∨ ({ sampled 9 empty with cfg := ⟨.due, .binary64⟩ } : State).cfg.reqGate = .due)) ∧
    ¬ (empty.halt = false ∧ empty.chOpen = true ∧ (sampled 9 empty).cnt.val = 9 ∧
      (empty.rxAvail ≠ 0 ∨ (sampled 9 empty).cfg.reqGate = .due)) := by decide
theorem test_witness_ReadAndPublishExactlyInAttempts :
    ((ready scan1).halt = false ∧ (ready scan1).chOpen = true ∧ (sampled 9 empty).cnt.val = 9 ∧
      (ready scan1).rxAvail ≠ 0) ∧
    ¬ (empty.halt = false ∧ empty.chOpen = true ∧ (sampled 9 empty).cnt.val = 9 ∧ empty.rxAvail ≠ 0) := by decide
theorem test_witness_TickDecodesItsOwnBytes :
    ((ready scan5).halt = false ∧ (ready scan5).chOpen = true ∧ (ready scan5).rxAvail ≠ 0 ∧
      9 ≤ (ready scan5).answer.length) ∧
    ((ready (scan1.take 8)).rxAvail ≠ 0 ∧ (ready (scan1.take 8)).answer.length < 9) ∧ empty.rxAvail = 0 := by decide

theorem reset_inv : State.reset.Inv :=
  ⟨⟨List.Pairwise.nil, by simp [State.reset]⟩, by simp [State.reset], by simp [State.reset], by simp [State.reset],
    ⟨0#32, by decide⟩, ⟨0#32, by decide⟩⟩
theorem test_witness_StepKeepsTheStateInvariant :
    State.reset.Inv ∧ ∃ t, step State.reset = .next t := ⟨reset_inv, _, rfl⟩
theorem test_witness_FatalKeepsTheResetValues :
    (mk .boot 0 [.boot ⟨false, false⟩]).FreshUntilRun ∧
      ∃ t, step (mk .boot 0 [.boot ⟨false, false⟩]) = .next t ∧ t.mode = .fatal :=
  ⟨⟨rfl, fun _ => ⟨rfl, rfl, rfl, rfl⟩⟩, _, rfl, rfl⟩
theorem test_witness_OnlyWholeRequestsAreSent :
    WholeRequests State.reset.env.sent ∧ ∃ t, step State.reset = .next t := ⟨⟨0, rfl⟩, _, rfl⟩
theorem test_witness_TenTicksHoldOneAttempt :
    let ts := List.replicate 10 (ready scan1)
    let s := mk .run 4 (ts.map Input.tick ++ [])
    s.seq = none ∧ s.mode = .run ∧ ts.length = 10 ∧ s.env.inputs = ts.map Input.tick ++ [] ∧
      (∀ t ∈ ts, t.halt = false) ∧ ∀ t ∈ ts, t.chOpen = true ∧ t.rxAvail ≠ 0 := by decide
theorem test_witness_NoBytesNoRequestUnderAvail :
    (mk .run 9 [.tick empty, .arrive scan1]).seq = none ∧
      (mk .run 9 [.tick empty, .arrive scan1]).cfg.reqGate = .avail ∧
      ∀ e ∈ (mk .run 9 [.tick empty, .arrive scan1]).env.inputs, e.quiet :=
  ⟨rfl, rfl, by simp [mk, Input.quiet, empty]⟩
theorem test_witness_TerminalModesHoldWithoutReset :
    ∀ m ∈ [Mode.fatal, .halted], (mk m 0 [.tick closed, .boot ⟨true, true⟩]).seq = none ∧
      ((mk m 0 [.tick closed, .boot ⟨true, true⟩]).mode = .fatal ∨
        (mk m 0 [.tick closed, .boot ⟨true, true⟩]).mode = .halted) ∧
      ∀ e ∈ (mk m 0 [.tick closed, .boot ⟨true, true⟩]).env.inputs, e.isRst = false := by decide
theorem test_witness_ScratchAndFlagsInfluenceNothing :
    Memory.wf (holding scan1).rawbuf ∧ Memory.wf (mk .run 0 []).rawbuf ∧ (holding scan1).seq = none ∧
      (holding scan1).visible = (mk .run 0 []).visible ∧ holding scan1 ≠ mk .run 0 [] :=
  ⟨by decide, ⟨List.Pairwise.nil, by simp [mk, State.reset]⟩, rfl, rfl, by decide⟩
theorem test_witness_LastByteIsNeverRead :
    9 ≤ (holding scan1).rawlen ∧ (holding scan1).rawlen ≤ 1024 ∧
      (∀ k, k < 8 → Memory.get (holding (scan1.take 8)).rawbuf k = Memory.get (holding scan1).rawbuf k) ∧
      (holding scan1).idx + 8 ≤ (holding scan1).rawlen := by decide
theorem test_witness_FaithfulChannelLosesNothing :
    let s := { sampled 9 (ready scan1) with env := ⟨[], scan1 ++ scan5, [], []⟩ }
    Memory.wf s.rawbuf ∧ s.tin.rx <+: s.env.rxq := by decide
theorem test_witness_Binary64IsExact : (1#32 : Word32) ≠ 0#32 := by decide
theorem test_witness_Binary32RoundsToNearestEven :
    (0x00FFFFFF#32).toNat < 2 ^ 24 ∧ 2 ^ 24 ≤ (0x01000000#32).toNat ∧
    2 * (0x01000001#32).toNat = (2 * 2 ^ 23 + 1) * 2 ^ ((0x01000001#32).toNat.log2 - 23) := by decide
theorem test_witness_ScalingGivesZeroOrNormal : (0xFFFFFFFF#32 : Word32) ≠ 0#32 := by decide
theorem test_witness_ScalingLaws :
    (0x01000002#32).toNat ≤ (0x01000003#32).toNat ∧ (0x01000002#32).toNat < (0x01000003#32).toNat ∧
      q16ToFloat .binary64 1#32 = q16ToFloat .binary64 1#32 ∧ (0x7FFFFFFF#32).toNat < 2 ^ 31 := by decide

end Sys2Proof.Tests
end

section
/-! The statements of `00_scope.md` about ASM32 run alone. -/

namespace Sys2Proof.Machine

/-- ASM32 stops where the payload at the selected offset leaves the stored bytes: R13 defines no `MemRead` there. -/
theorem execAsm32_fault {s : State} (h : ¬ (s.idx + 7 ≤ s.rawlen ∧ s.idx + 7 ≤ 1024)) :
    execAsm32 s = .fault .outOfBounds := by
  simp [execAsm32, payload_eq_none h]

/-- Settles O12: ASM32 reads nothing but the payload, and that has no value outside the stored bytes. -/
theorem asm32StopsOutOfBounds : Obligations.Asm32StopsOutOfBounds :=
  fun _ h => execAsm32_fault h

end Sys2Proof.Machine
end

section
/-! The statements of `10_state.md`: the invariant of the state, the elements a tick writes, and what the scratch elements
cannot influence. -/

namespace Sys2Proof.Machine

/-! ### The reset values and the level outputs -/

/-- R40's `fatal`. -/
@[simp] theorem fatalOut_eq_true (s : State) : fatalOut s = true ↔ s.mode = .fatal := beq_iff_eq

/-- R40's `halted`. -/
@[simp] theorem haltedOut_eq_true (s : State) : haltedOut s = true ↔ s.mode = .halted := beq_iff_eq

/-- Settles O33: the table of R42 is the definition of the state after reset. -/
theorem resetStateIsTheTables : Obligations.ResetStateIsTheTables :=
  ⟨rfl, rfl, rfl, rfl, rfl, rfl, rfl, rfl, rfl, rfl⟩

/-- Settles O34. -/
theorem levelOutputsFollowTheMode : Obligations.LevelOutputsFollowTheMode :=
  fun s => ⟨fatalOut_eq_true s, haltedOut_eq_true s⟩

/-! ### Between events -/

/-- With no input to come, a step that takes none clears the outputs alone. -/
theorem afterInput_nil {s : State} (hi : s.env.inputs = []) : s.afterInput [] = { s with out := TickOut.none } := by
  rw [State.afterInput, ← hi]

/-- Settles O39: the two cases of the step in which the block has no event. -/
theorem blockActsOnlyOnItsEvents : Obligations.BlockActsOnlyOnItsEvents := by
  refine ⟨fun s bs rest hseq hin => ?_, fun s hseq hin => ?_⟩
  · rw [step_input hseq hin]
    rfl
  · rw [step_noInput hseq hin, afterInput_nil hin]

/-! ### The invariant of the state -/

/-- The scaling's result for 0 is +0.0, R143. -/
theorem isScaled_zero (f : LenFmt) : IsScaled f 0#64 := ⟨0#32, by simp [q16ToFloat]⟩

namespace State.Inv

variable {s : State}

/-- The invariant speaks of six fields alone: a state that agrees in them with one that meets it meets it too. -/
theorem congr {t : State} (h : s.Inv) (hbuf : t.rawbuf = s.rawbuf := by simp) (hlen : t.rawlen = s.rawlen := by simp)
    (hidx : t.idx = s.idx := by simp) (hreading : t.reading = s.reading := by simp)
    (hlatch : t.len = s.len := by simp) (hcfg : t.cfg = s.cfg := by simp) : t.Inv where
  rawbuf_wf := hbuf ▸ h.rawbuf_wf
  rawbuf_cap := hbuf ▸ h.rawbuf_cap
  rawlen_le := hlen ▸ h.rawlen_le
  idx_le := hidx ▸ h.idx_le
  length_scaled := hreading ▸ hcfg ▸ h.length_scaled
  len_scaled := hlatch ▸ hcfg ▸ h.len_scaled

/-- A reset establishes the invariant, whatever was before it. -/
theorem applyReset (s : State) : (applyReset s).Inv where
  rawbuf_wf := ⟨List.Pairwise.nil, fun _ hc => absurd hc List.not_mem_nil⟩
  rawbuf_cap := fun _ hc => absurd hc List.not_mem_nil
  rawlen_le := Nat.zero_le _
  idx_le := Nat.zero_le _
  length_scaled := isScaled_zero _
  len_scaled := isScaled_zero _

/-- RDBUF stores at most 1024 bytes from index 0, R68 and R108. -/
theorem readBuffer (h : s.Inv) : (readBuffer s).Inv where
  rawbuf_wf := Memory.write_wf h.rawbuf_wf 0 _
  rawbuf_cap := Memory.write_lt h.rawbuf_cap 0 _ (by simpa using readBytes_length_le s)
  rawlen_le := readBytes_length_le s
  idx_le := h.idx_le
  length_scaled := h.length_scaled
  len_scaled := h.len_scaled

/-- The search of a buffer within its capacity selects an offset in the range R20 gives `idx`. -/
theorem setSelected (h : s.Inv) {i : Nat} {f : Bool} (hsel : Selected s.buffer i f) :
    ({ s with idx := i, syncFound := f } : State).Inv :=
  { h with
    idx_le := by
      have hi := hsel.le
      have hl := h.rawlen_le
      rw [buffer_length] at hi
      show i ≤ 1016
      omega }

theorem afterShort (h : s.Inv) : (afterShort s).Inv := h.readBuffer.congr

theorem afterDecoded (h : s.Inv) {i : Nat} {f : Bool} (hsel : Selected (Machine.readBuffer s).buffer i f) :
    (afterDecoded s i f).Inv :=
  { h.readBuffer.setSelected hsel with
    length_scaled := ⟨_, rfl⟩
    len_scaled := ⟨_, rfl⟩ }

end State.Inv

/-- A tick outcome that answers a next state ran in RUN and is the one selected, R80. -/
theorem selected_of_exec_tickOutcome {s t : State} {i : Instr} (hi : i ∈ tickOutcomes) (h : exec i s = .next t) :
    s.mode = .run ∧ tickInstr s = i := by
  by_contra hn
  rw [exec_tickOutcome_fault hi hn] at h
  cases h

/-- A boot event that answers a next state ran in BOOT and is the one selected, R81. -/
theorem selected_of_exec_bootEvent {s t : State} {i : Instr} (hi : i ∈ bootEvents) (h : exec i s = .next t) :
    s.mode = .boot ∧ bootEventOf s.bin.openOk s.bin.chOpen = i := by
  by_contra hn
  rw [exec_bootEvent_fault hi hn] at h
  cases h

/-- Of the block's elements a boot event changes the mode alone, R203. -/
theorem exec_bootEvent_next {s t : State} {i : Instr} (hi : i ∈ bootEvents) (h : exec i s = .next t) :
    ∃ l m, t = raiseEvent l m s := by
  obtain ⟨hm, hb⟩ := selected_of_exec_bootEvent hi h
  simp only [bootEvents, List.mem_cons, List.not_mem_nil, or_false] at hi
  rcases hi with rfl | rfl | rfl
  · cases (exec_bootOk_eq hm hb).symm.trans h
    exact ⟨_, _, rfl⟩
  · cases (exec_fatalOpen_eq hm hb).symm.trans h
    exact ⟨_, _, rfl⟩
  · cases (exec_fatalClosed_eq hm hb).symm.trans h
    exact ⟨_, _, rfl⟩

theorem exec_tickOutcome_keeps_inv {s t : State} {i : Instr} (hs : s.Inv) (hi : i ∈ tickOutcomes)
    (h : exec i s = .next t) : t.Inv := by
  obtain ⟨hm, rfl⟩ := selected_of_exec_tickOutcome hi h
  rcases exec_tickInstr hm with ⟨-, -, hx⟩ | ⟨-, -, -, hx⟩ | ⟨-, -, -, -, hx⟩ | ⟨-, -, -, -, -, hx⟩ |
    ⟨-, -, -, -, -, -, hx⟩ | ⟨-, -, -, -, -, i, f, hsel, -, hx⟩ <;> cases hx.symm.trans h
  · exact hs.congr
  · exact hs.congr
  · exact hs.congr
  · exact hs.congr
  · exact hs.afterShort
  · exact hs.afterDecoded hsel

theorem exec_bootEvent_keeps_inv {s t : State} {i : Instr} (hs : s.Inv) (hi : i ∈ bootEvents)
    (h : exec i s = .next t) : t.Inv := by
  obtain ⟨l, m, rfl⟩ := exec_bootEvent_next hi h
  exact hs.congr

/-- SCAN either stops or selects as R125 says. -/
theorem execScan_keeps_inv {s t : State} (hs : s.Inv) (h : execScan s = .next t) : t.Inv := by
  by_cases h9 : 9 ≤ s.rawlen
  · obtain ⟨i, f, -, hsel⟩ := scanResult_spec h9 hs.rawlen_le
    cases (execScan_eq h9 hs.rawlen_le hsel).symm.trans h
    exact hs.setSelected hsel
  · cases (execScan_short (not_le.1 h9)).symm.trans h

/-- ASM32 either stops or writes `value`. -/
theorem execAsm32_keeps_inv {s t : State} (hs : s.Inv) (h : execAsm32 s = .next t) : t.Inv := by
  by_cases hb : s.idx + 7 ≤ s.rawlen ∧ s.idx + 7 ≤ 1024
  · cases (execAsm32_eq hb.1 hs.rawlen_le).symm.trans h
    exact hs.congr
  · cases (execAsm32_fault hb).symm.trans h

/-- Every instruction keeps the invariant, also run alone. -/
theorem exec_keeps_inv {s t : State} {i : Instr} (hs : s.Inv) (h : exec i s = .next t) : t.Inv := by
  cases i with
  | idle | skipClosed | skipNoavail | attShort | attFallback | attFound | halt =>
    exact exec_tickOutcome_keeps_inv hs (by simp [tickOutcomes]) h
  | bootOk | fatalOpen | fatalClosed => exact exec_bootEvent_keeps_inv hs (by simp [bootEvents]) h
  | req | resp | reading | wrreq | lenchk | publish => cases h; exact hs.congr
  | rdbuf => cases h; exact hs.readBuffer
  | scan => exact execScan_keeps_inv hs h
  | asm32 => exact execAsm32_keeps_inv hs h
  | scale => cases h; exact { hs with len_scaled := ⟨s.value, rfl⟩ }
  | stamp => cases h; exact { hs with length_scaled := hs.len_scaled }

/-- A tick cut short by a reset ends in the reset block, R200. -/
theorem cutTick_next_eq {s t : State} {done : Nat} (h : cutTick done s = .next t) : ∃ u, t = resetInTick u := by
  rw [cutTick_eq, andThen_eq_next] at h
  obtain ⟨u, -, hu⟩ := h
  cases hu
  exact ⟨u, rfl⟩

/-- Settles O45, by what a step can have done: it ran an instruction, it reset the block, or it touched none of the fields
the invariant speaks of. -/
theorem stepKeepsTheStateInvariant : Obligations.StepKeepsTheStateInvariant := by
  intro s t hs h
  rcases step_next_cases h with ⟨w, i, -, -, hx⟩ |
    ⟨-, rfl | rfl | ⟨b, done, -, hx⟩ | ⟨bs, rfl⟩ | ⟨b, -, hx⟩ | ⟨b, -, hx⟩⟩
  · exact exec_keeps_inv (s := s.afterSeq) hs.congr hx
  · exact hs.congr
  · exact .applyReset _
  · obtain ⟨u, rfl⟩ := cutTick_next_eq hx
    exact (State.Inv.applyReset u).congr
  · exact hs.congr
  · exact exec_keeps_inv (s := s.bootState b _) { hs with } hx
  · exact exec_keeps_inv (s := s.tickState b _) hs.congr hx

/-- Settles O46: the state after reset is itself a reset block. -/
theorem resetMeetsTheStateInvariant : Obligations.ResetMeetsTheStateInvariant :=
  .applyReset State.reset

/-! ### The elements a tick in RUN writes -/

/-- The advance of the counter as R22 writes it. -/
theorem nextCnt_val_wrap (c : Fin Config.cycleLen) : (nextCnt c).val = if c.val + 1 = 10 then 0 else c.val + 1 := by
  rw [nextCnt_val]
  exact if_congr (by omega) rfl rfl

/-- Settles O41: of the outcomes of a tick all but HALT end in the counter's advance. -/
theorem everyTickAdvancesTheCounter : Obligations.EveryTickAdvancesTheCounter := by
  intro s t rest hseq hin hm
  rcases tick_cases hseq hin hm with ⟨hh, hx⟩ | ⟨hh, -, hx⟩ | ⟨hh, -, -, hx⟩ | ⟨hh, -, -, -, hx⟩ |
    ⟨hh, -, -, -, -, hx⟩ | ⟨hh, -, -, -, -, i, f, -, hx⟩ <;> refine ⟨_, hx, ?_⟩
  · simp [hh]
  all_goals simp [hh, hm, nextCnt_val_wrap]

/-- Settles O44: of the outcomes of a tick only a short attempt and one that decodes write the flags, and only the latter
the Reading. -/
theorem tickDecodesItsOwnBytes : Obligations.TickDecodesItsOwnBytes := by
  intro s t rest hwf hseq hin hm
  rcases tick_cases hseq hin hm with ⟨hh, hx⟩ | ⟨hh, ho, hx⟩ | ⟨hh, ho, hc, hx⟩ | ⟨hh, ho, hc, ha, hx⟩ |
    ⟨hh, ho, hc, ha, hl, hx⟩ | ⟨hh, ho, hc, ha, hl, i, f, hsel, hx⟩ <;> refine ⟨_, hx, ?_⟩
  · simp [hh]
  · simp [ho]
  · simp [hc]
  · simp [ha]
  · simp [hh, ho, hc, ha, hl]
  · rw [buffer_tickState hwf] at hsel
    refine ⟨fun _ => ⟨i, f, hsel, rfl, rfl, rfl, ?_⟩, fun ⟨_, _, _, _, hl'⟩ => absurd hl (not_le.2 hl'),
      fun h => absurd ⟨hh, ho, hc, ha⟩ h⟩
    simp [buffer_tickState hwf]

/-! ### What the scratch elements and the flags cannot influence

Each operation of a step commutes with `State.visible`, which blanks them: its result, seen without them, is a function of
the state seen without them. -/

/-- What the search selects in the bytes a tick reads, if they are enough for one. -/
def SearchSelects (s : State) (i : Nat) (f : Bool) : Prop := 9 ≤ (readBytes s).length → Selected (readBytes s) i f

theorem exists_searchSelects {s : State} (hwf : Memory.wf s.rawbuf) : ∃ i f, SearchSelects s i f := by
  by_cases hl : 9 ≤ (readBytes s).length
  · obtain ⟨i, f, -, hsel⟩ := scanResult_spec (s := readBuffer s) hl (readBytes_length_le s)
    exact ⟨i, f, fun _ => buffer_readBuffer hwf ▸ hsel⟩
  · exact ⟨0, false, fun h => absurd h hl⟩

/-- The state in which a tick in RUN ends, when the search selects `i` and `f`, by the priority of R182. -/
def tickEnd (i : Nat) (f : Bool) (s : State) : State :=
  if s.tin.halt = true then raiseEvent .halt .halted s
  else if s.tin.chOpen = false then afterClosed s
  else if s.cnt.val ≠ 9 then endTick .idle s
  else if s.tin.rxAvail = 0 then afterNoavail s
  else if (readBytes s).length < 9 then afterShort s
  else afterDecoded s i f

theorem exec_tickInstr_eq_tickEnd {s : State} {i : Nat} {f : Bool} (hwf : Memory.wf s.rawbuf) (hm : s.mode = .run)
    (hsel : SearchSelects s i f) : exec (tickInstr s) s = .next (tickEnd i f s) := by
  rcases exec_tickInstr hm with ⟨hh, -, hx⟩ | ⟨hh, ho, -, hx⟩ | ⟨hh, ho, hc, -, hx⟩ | ⟨hh, ho, hc, ha, -, hx⟩ |
    ⟨hh, ho, hc, ha, hl, -, hx⟩ | ⟨hh, ho, hc, ha, hl, i', f', hsel', -, hx⟩
  · simp [hx, tickEnd, hh]
  · simp [hx, tickEnd, hh, ho]
  · simp [hx, tickEnd, hh, ho, hc]
  · simp [hx, tickEnd, hh, ho, hc, ha]
  · simp [hx, tickEnd, hh, ho, hc, ha, hl]
  · rw [buffer_readBuffer hwf] at hsel'
    obtain ⟨rfl, rfl⟩ := hsel'.unique (hsel hl)
    simp [hx, tickEnd, hh, ho, hc, ha, not_lt.2 hl]

/-- What the first `done` operations of a tick have issued when `rst` lands in it, R200, where the search selects `i`. -/
def cutEnd (done i : Nat) (s : State) : State :=
  if s.tin.halt = true ∨ s.tin.chOpen = true ∧ s.cnt.val ≠ 9 then s
  else if s.tin.chOpen = false then issued s none none none (decide (1 ≤ done))
  else if s.tin.rxAvail = 0 then
    issued s (if 1 ≤ done ∧ s.cfg.reqGate = .due then some Config.reqCmd else none) none none false
  else if (readBytes s).length < 9 then attemptIssued 4 s.reading done s
  else attemptIssued 8 ⟨s.tin.now, q16ToFloat s.cfg.lenFmt (payloadAt (readBytes s) i)⟩ done s

theorem cutTick_eq_cutEnd {s : State} {done i : Nat} {f : Bool} (hwf : Memory.wf s.rawbuf) (hout : s.out = TickOut.none)
    (hsel : SearchSelects s i f) : cutTick done s = .next (resetInTick (cutEnd done i s)) := by
  rcases cutTick_cases hout done with ⟨h, hx⟩ | ⟨hh, ho, hx⟩ | ⟨hh, ho, hc, ha, hx⟩ | ⟨hh, ho, hc, ha, hl, hx⟩ |
    ⟨hh, ho, hc, ha, hl, i', f', hsel', hx⟩
  · simp [hx, cutEnd, h]
  · simp [hx, cutEnd, hh, ho]
  · simp [hx, cutEnd, hh, ho, hc, ha]
  · simp [hx, cutEnd, hh, ho, hc, ha, hl]
  · rw [buffer_readBuffer hwf] at hsel' hx
    obtain ⟨rfl, rfl⟩ := hsel'.unique (hsel hl)
    simp [hx, cutEnd, hh, ho, hc, ha, not_lt.2 hl]

/-! The fields `State.visible` keeps, and the operations it commutes with. -/

@[simp] theorem visible_visible (s : State) : s.visible.visible = s.visible := rfl
@[simp] theorem visible_mode (s : State) : s.visible.mode = s.mode := rfl
@[simp] theorem visible_out (s : State) : s.visible.out = s.out := rfl
@[simp] theorem visible_env (s : State) : s.visible.env = s.env := rfl
@[simp] theorem visible_seq (s : State) : s.visible.seq = s.seq := rfl
@[simp] theorem readBytes_visible (s : State) : readBytes s.visible = readBytes s := rfl

theorem visible_afterInput (s : State) (rest : List Input) :
    (s.afterInput rest).visible = s.visible.afterInput rest := rfl
theorem visible_applyReset (s : State) : (applyReset s).visible = applyReset s.visible := rfl
theorem visible_resetInTick (s : State) : (resetInTick s).visible = resetInTick s.visible := rfl
theorem visible_arriveBytes (bs : List Byte) (s : State) :
    (arriveBytes bs s).visible = arriveBytes bs s.visible := rfl
theorem visible_raiseEvent (l : Label) (m : Mode) (s : State) :
    (raiseEvent l m s).visible = raiseEvent l m s.visible := rfl
theorem visible_endTick (l : Label) (s : State) : (endTick l s).visible = endTick l s.visible := rfl
theorem visible_noavailRequest (s : State) : (noavailRequest s).visible = noavailRequest s.visible :=
  apply_ite State.visible ..

/-- The buffer after a read is the bytes read, whatever it held before. -/
theorem buffer_readBuffer_visible {s : State} (hwf : Memory.wf s.rawbuf) :
    (readBuffer s.visible).buffer = (readBuffer s).buffer := by
  have hnil : Memory.wf s.visible.rawbuf := (State.Inv.applyReset s).rawbuf_wf
  rw [buffer_readBuffer hwf, buffer_readBuffer hnil, readBytes_visible]

theorem visible_afterDecoded {s : State} (hwf : Memory.wf s.rawbuf) (i : Nat) (f : Bool) :
    (afterDecoded s i f).visible = (afterDecoded s.visible i f).visible := by
  simp only [afterDecoded, buffer_readBuffer_visible hwf]
  rfl

theorem visible_tickEnd {s : State} (hwf : Memory.wf s.rawbuf) (i : Nat) (f : Bool) :
    (tickEnd i f s).visible = (tickEnd i f s.visible).visible := by
  simp only [tickEnd, apply_ite State.visible]
  refine if_congr .rfl rfl (if_congr .rfl rfl (if_congr .rfl rfl (if_congr .rfl ?noavail (if_congr .rfl rfl ?decoded))))
  case noavail => simp only [afterNoavail, visible_endTick, visible_noavailRequest, visible_visible]
  case decoded => exact visible_afterDecoded hwf i f

theorem visible_cutEnd (done i : Nat) (s : State) : (cutEnd done i s).visible = cutEnd done i s.visible := by
  simp only [cutEnd, apply_ite State.visible]
  rfl

section SameVisible

variable {s t : State}

/-- The bytes a tick reads do not depend on the scratch elements. -/
theorem readBytes_eq_of_visible (h : s.visible = t.visible) : readBytes s = readBytes t := by
  rw [← readBytes_visible s, h, readBytes_visible]

theorem mode_eq_of_visible (h : s.visible = t.visible) : s.mode = t.mode := by
  rw [← visible_mode s, h, visible_mode]

/-- A tick in RUN. -/
theorem exec_tickInstr_sameVisible (hs : Memory.wf s.rawbuf) (ht : Memory.wf t.rawbuf) (h : s.visible = t.visible)
    (hm : s.mode = .run) :
    ∃ u v, exec (tickInstr s) s = .next u ∧ exec (tickInstr t) t = .next v ∧ u.visible = v.visible := by
  obtain ⟨i, f, hsel⟩ := exists_searchSelects hs
  have hsel' : SearchSelects t i f := by rwa [SearchSelects, ← readBytes_eq_of_visible h]
  refine ⟨_, _, exec_tickInstr_eq_tickEnd hs hm hsel,
    exec_tickInstr_eq_tickEnd ht (mode_eq_of_visible h ▸ hm) hsel', ?_⟩
  rw [visible_tickEnd hs, visible_tickEnd ht, h]

/-- A tick in RUN cut short by a reset. -/
theorem cutTick_sameVisible (hs : Memory.wf s.rawbuf) (ht : Memory.wf t.rawbuf) (h : s.visible = t.visible)
    (hout : s.out = TickOut.none) (done : Nat) :
    ∃ u v, cutTick done s = .next u ∧ cutTick done t = .next v ∧ u.visible = v.visible := by
  obtain ⟨i, f, hsel⟩ := exists_searchSelects hs
  have hsel' : SearchSelects t i f := by rwa [SearchSelects, ← readBytes_eq_of_visible h]
  have hout' : t.out = TickOut.none := by rw [← visible_out, ← h, visible_out, hout]
  refine ⟨_, _, cutTick_eq_cutEnd hs hout hsel, cutTick_eq_cutEnd ht hout' hsel', ?_⟩
  rw [visible_resetInTick, visible_resetInTick, visible_cutEnd, visible_cutEnd, h]

/-- The boot sequence. -/
theorem takeBoot_sameVisible (h : s.visible = t.visible) (b : BootIn) :
    ∃ u v, takeBoot b s = .next u ∧ takeBoot b t = .next v ∧ u.visible = v.visible := by
  have hmode := mode_eq_of_visible h
  have hbin : ({ s with bin := b } : State).visible = ({ t with bin := b } : State).visible :=
    congrArg (fun x : State => { x with bin := b }) h
  by_cases hm : s.mode = .boot
  · refine ⟨_, _, takeBoot_boot b hm, takeBoot_boot b (hmode ▸ hm), ?_⟩
    simp only [apply_ite State.visible, visible_raiseEvent, hbin]
  · exact ⟨_, _, takeBoot_ignored b hm, takeBoot_ignored b (hmode ▸ hm), h⟩

theorem takeInput_sameVisible (hs : Memory.wf s.rawbuf) (ht : Memory.wf t.rawbuf) (h : s.visible = t.visible)
    (hout : s.out = TickOut.none) (e : Input) :
    ∃ u v, takeInput e s = .next u ∧ takeInput e t = .next v ∧ u.visible = v.visible := by
  have hmode := mode_eq_of_visible h
  have htin : ∀ b, ({ s with tin := b } : State).visible = ({ t with tin := b } : State).visible :=
    fun b => congrArg (fun x : State => { x with tin := b }) h
  have hreset : (applyReset s).visible = (applyReset t).visible := by rw [visible_applyReset, visible_applyReset, h]
  cases e with
  | rst => exact ⟨_, _, rfl, rfl, hreset⟩
  | arrive bs => exact ⟨_, _, rfl, rfl, by rw [visible_arriveBytes, visible_arriveBytes, h]⟩
  | boot b => exact takeBoot_sameVisible h b
  | tick b =>
    by_cases hm : s.mode = .run
    · simp only [takeInput, takeTick_run b hm, takeTick_run b (hmode ▸ hm)]
      exact exec_tickInstr_sameVisible (s := { s with tin := b }) (t := { t with tin := b }) hs ht (htin b) hm
    · exact ⟨_, _, takeTick_ignored b hm, takeTick_ignored b (hmode ▸ hm), h⟩
  | rstInTick b done =>
    by_cases hm : s.mode = .run
    · simp only [takeInput, takeRstInTick_run b done hm, takeRstInTick_run b done (hmode ▸ hm)]
      exact cutTick_sameVisible (s := { s with tin := b }) (t := { t with tin := b }) hs ht (htin b) hout done
    · exact ⟨_, _, takeRstInTick_ignored b done hm, takeRstInTick_ignored b done (hmode ▸ hm), hreset⟩

end SameVisible

/-- Settles O52: the two states take the same input, from states that again differ in scratch and flags alone. -/
theorem scratchAndFlagsInfluenceNothing : Obligations.ScratchAndFlagsInfluenceNothing := by
  intro s t hs ht hseq h
  have hseq' : t.seq = none := by rw [← visible_seq, ← h, visible_seq, hseq]
  have henv : t.env = s.env := by rw [← visible_env, ← h, visible_env]
  have hafter : ∀ rest, (s.afterInput rest).visible = (t.afterInput rest).visible := fun rest => by
    rw [visible_afterInput, visible_afterInput, h]
  cases hin : s.env.inputs with
  | nil => exact ⟨_, _, step_noInput hseq hin, step_noInput hseq' (henv ▸ hin), hafter []⟩
  | cons e rest =>
    rw [step_input hseq hin, step_input hseq' (henv ▸ hin)]
    exact takeInput_sameVisible (s := s.afterInput rest) (t := t.afterInput rest) hs ht (hafter rest) rfl e

end Sys2Proof.Machine
end

section
/-! The statements of `20_memory.md`: the byte of the buffer that is never read, and the bytes the channel hands over. -/

namespace Sys2Proof.Machine

/-! ### The last byte of the buffer -/

section LastByte

variable {bs bs' : List Byte}

/-- The marker's three bytes at an offset of the search are all below the last byte, R55. -/
theorem markerAt_congr (h : ∀ k, k + 1 < bs.length → bs'[k]? = bs[k]?) {j : Nat} (hj : j + 8 ≤ bs.length) :
    MarkerAt bs' j ↔ MarkerAt bs j := by
  rw [MarkerAt, MarkerAt, h j (by omega), h (j + 1) (by omega), h (j + 2) (by omega)]

/-- The payload at an offset of the search ends below the last byte, R55. -/
theorem payloadAt_congr (h : ∀ k, k + 1 < bs.length → bs'[k]? = bs[k]?) {i : Nat} (hi : i + 8 ≤ bs.length) :
    payloadAt bs' i = payloadAt bs i := by
  simp only [payloadAt, List.getD_eq_getElem?_getD, h (i + 3) (by omega), h (i + 4) (by omega), h (i + 5) (by omega),
    h (i + 6) (by omega)]

/-- The search selects the same in bytes that agree below the last one. -/
theorem Selected.congr (hl : bs'.length = bs.length) (h : ∀ k, k + 1 < bs.length → bs'[k]? = bs[k]?) {i : Nat}
    {f : Bool} (hsel : Selected bs i f) : Selected bs' i f := by
  rcases hsel with ⟨rfl, hi, hm, hlow⟩ | ⟨rfl, hno, hi⟩
  · refine .inl ⟨rfl, hl ▸ hi, (markerAt_congr h hi).2 hm, fun j hj hm' => ?_⟩
    exact hlow j hj ((markerAt_congr h (by omega)).1 hm')
  · refine .inr ⟨rfl, fun j hj hm' => ?_, hl ▸ hi⟩
    rw [hl] at hj
    exact hno j hj ((markerAt_congr h hj).1 hm')

end LastByte

/-- Memories that agree below the last stored byte give buffers that do. -/
theorem buffer_getElem?_congr {s : State} {m : Memory}
    (h : ∀ k, k + 1 < s.rawlen → Memory.get m k = Memory.get s.rawbuf k) (k : Nat) (hk : k + 1 < s.buffer.length) :
    ({ s with rawbuf := m } : State).buffer[k]? = s.buffer[k]? := by
  rw [buffer_length] at hk
  rw [buffer_getElem?, buffer_getElem?, h k hk]

/-- Settles O53: what SCAN selects and ASM32 assembles are functions of the buffer below its last byte. -/
theorem lastByteIsNeverRead : Obligations.LastByteIsNeverRead := by
  intro s m h9 hc h
  have hbuf := buffer_getElem?_congr h
  refine ⟨?scan, fun hi => ?asm32⟩
  case scan =>
    obtain ⟨i, f, -, hsel⟩ := scanResult_spec h9 hc
    exact ⟨i, f, execScan_eq h9 hc hsel,
      execScan_eq (s := { s with rawbuf := m }) h9 hc (hsel.congr (by simp) hbuf)⟩
  case asm32 =>
    refine ⟨_, execAsm32_eq (by omega) hc, ?_⟩
    rw [← payloadAt_congr hbuf (by rwa [buffer_length])]
    exact execAsm32_eq (s := { s with rawbuf := m }) (show s.idx + 7 ≤ s.rawlen by omega) hc

/-! ### The channel's queue -/

/-- A read returns no more than the channel has available, R59. -/
theorem readBytes_length_le_rxAvail (s : State) : (readBytes s).length ≤ s.tin.rxAvail := by
  rw [readBytes_eq, List.length_take]
  omega

/-- Bytes ready at the front of the queue are read from its front. -/
theorem readBytes_prefix {s : State} (h : s.tin.rx <+: s.env.rxq) : readBytes s <+: s.env.rxq :=
  (List.take_prefix _ _).trans h

/-- Settles O54: RDBUF stores a front part of the queue and leaves the rest of it. -/
theorem faithfulChannelLosesNothing : Obligations.FaithfulChannelLosesNothing := by
  intro s hwf hrx
  refine ⟨readBuffer s, rfl, ?_, readBytes_length_le s, readBytes_length_le_rxAvail s⟩
  rw [buffer_readBuffer hwf, readBuffer_env]
  exact List.prefix_iff_eq_append.1 (readBytes_prefix hrx)

end Sys2Proof.Machine
end

section
/-! The statements of `30_encoding.md`: the words of the formats and of the tables, the three formats as instructions,
which outcome a tick and which event a boot runs, what is sent, and the placing of a word. -/

namespace Sys2Proof

/-! ### A word and its number -/

/-- The number of a well-formed instruction's word fits the word's width. -/
theorem encodeNumber_lt {f : LenFmt} {i : Instr} (h : i.wellFormed f = true) :
    encodeNumber f i < 2 ^ (i.format f).bits := by
  revert f
  change Laws.NumberFits.Statement i
  cases i with
  | req => exact Laws.NumberFits.req
  | resp v => exact Laws.NumberFits.resp v
  | reading t l => exact Laws.NumberFits.reading t l
  | idle => exact Laws.NumberFits.idle
  | skipClosed => exact Laws.NumberFits.skipClosed
  | skipNoavail => exact Laws.NumberFits.skipNoavail
  | attShort => exact Laws.NumberFits.attShort
  | attFallback => exact Laws.NumberFits.attFallback
  | attFound => exact Laws.NumberFits.attFound
  | halt => exact Laws.NumberFits.halt
  | bootOk => exact Laws.NumberFits.bootOk
  | fatalOpen => exact Laws.NumberFits.fatalOpen
  | fatalClosed => exact Laws.NumberFits.fatalClosed
  | wrreq => exact Laws.NumberFits.wrreq
  | rdbuf => exact Laws.NumberFits.rdbuf
  | lenchk => exact Laws.NumberFits.lenchk
  | scan => exact Laws.NumberFits.scan
  | asm32 => exact Laws.NumberFits.asm32
  | scale => exact Laws.NumberFits.scale
  | stamp => exact Laws.NumberFits.stamp
  | publish => exact Laws.NumberFits.publish

/-- R79: a `length` of a well-formed record fits its field. -/
theorem length_lt_of_wellFormed {f : LenFmt} {t l : FloatBits} (h : (Instr.reading t l).wellFormed f = true) :
    l.toNat < 2 ^ f.width := by
  cases f with
  | binary64 => exact l.isLt
  | binary32 => exact of_decide_eq_true h

/-- R79: the record's two fields are the two parts of its number. -/
theorem decodeNumber_reading {f : LenFmt} {l : FloatBits} (t : FloatBits) (h : l.toNat < 2 ^ f.width) :
    decodeNumber (.reading f) (t.toNat * 2 ^ f.width + l.toNat) = .ok (.reading t l) := by
  have hdiv : (t.toNat * 2 ^ f.width + l.toNat) / 2 ^ f.width = t.toNat := by
    rw [Nat.mul_comm, Nat.mul_add_div (by positivity), Nat.div_eq_of_lt h, Nat.add_zero]
  have hmod : (t.toNat * 2 ^ f.width + l.toNat) % 2 ^ f.width = l.toNat := by
    rw [Nat.mul_comm, Nat.mul_add_mod, Nat.mod_eq_of_lt h]
  simp [decodeNumber, hdiv, hmod]

/-- R73: the payload is the low part of a response word's number. -/
theorem decodeNumber_encodeNumber_resp (f : LenFmt) (v : Word32) :
    decodeNumber .resp (encodeNumber f (.resp v)) = .ok (.resp v) := by
  have hv := v.isLt
  have hpay : BitVec.ofNat 32 (0x010304 * 2 ^ 32 + v.toNat) = v :=
    BitVec.eq_of_toNat_eq (by rw [BitVec.toNat_ofNat]; omega)
  rw [encodeNumber_resp, decodeNumber_resp, if_pos (by omega), hpay]

/-- Decoding undoes encoding on the words' numbers. -/
theorem decodeNumber_encodeNumber {f : LenFmt} {i : Instr} (h : i.wellFormed f = true) :
    decodeNumber (i.format f) (encodeNumber f i) = .ok i := by
  cases i with
  | req => simp [Instr.format, encodeNumber, decodeNumber]
  | resp v => exact decodeNumber_encodeNumber_resp f v
  | reading t l => exact decodeNumber_reading t (length_lt_of_wellFormed h)
  | idle | skipClosed | skipNoavail | attShort | attFallback | attFound | halt => cases f <;> decide
  | bootOk | fatalOpen | fatalClosed => cases f <;> decide
  | wrreq | rdbuf | lenchk | scan | asm32 | scale | stamp | publish => cases f <;> decide

/-- Settles O1: a well-formed instruction's number fits its word, and decodes to it. -/
theorem decodeOfEncode : Obligations.DecodeOfEncode :=
  fun _ _ h => (decode_beBytes _ (encodeNumber_lt h)).trans (decodeNumber_encodeNumber h)

/-! ### A word that decodes -/

/-- What the decoder accepts. -/
theorem decode_eq_ok {w : FetchWord} {i : Instr} :
    decode w = .ok i ↔
      w.bytes.length = w.fmt.byteLen ∧ beNat w.bytes < 2 ^ w.fmt.bits ∧
        decodeNumber w.fmt (beNat w.bytes) = .ok i := by
  unfold decode
  split_ifs with hlen hfit <;> simp_all

/-- A number with a bit above the word's width is no word of the format, log entry 26. -/
theorem decode_beBytes_reserved (fmt : Format) {v : Nat} (hfit : 2 ^ fmt.bits ≤ v) (hv : v < 256 ^ fmt.byteLen) :
    decode ⟨fmt, beBytes fmt.byteLen v⟩ = .error .reservedBits := by
  simp [decode, beNat_beBytes, Nat.mod_eq_of_lt hv, not_lt.2 hfit]

/-- The word of the number its bytes spell. -/
theorem wordOf_beNat {w : FetchWord} (h : w.bytes.length = w.fmt.byteLen) : wordOf w.fmt (beNat w.bytes) = w := by
  rw [wordOf, ← h, beBytes_beNat]

/-- The word of `i` is the word of format `fmt` with the number `v`. -/
structure EncodesTo (f : LenFmt) (i : Instr) (fmt : Format) (v : Nat) : Prop where
  wellFormed : i.wellFormed f = true
  format_eq : i.format f = fmt
  number_eq : encodeNumber f i = v

theorem encodesTo_of_req {f : LenFmt} {v : Nat} {i : Instr} (h : decodeNumber .req v = .ok i) :
    EncodesTo f i .req v := by
  rw [decodeNumber_req] at h
  split_ifs at h with hv
  cases h
  exact ⟨rfl, rfl, hv.symm⟩

theorem encodesTo_of_resp {f : LenFmt} {v : Nat} {i : Instr} (h : decodeNumber .resp v = .ok i) :
    EncodesTo f i .resp v := by
  rw [decodeNumber_resp] at h
  split_ifs at h with hv
  cases h
  refine ⟨rfl, rfl, ?_⟩
  rw [encodeNumber_resp, BitVec.toNat_ofNat]
  omega

theorem encodesTo_of_reading {f : LenFmt} {v : Nat} {i : Instr} (hv : v < 2 ^ (Format.reading f).bits)
    (h : decodeNumber (.reading f) v = .ok i) : EncodesTo f i (.reading f) v := by
  cases h
  cases f with
  | binary64 =>
    change v < 2 ^ 128 at hv
    refine ⟨rfl, rfl, ?_⟩
    simp only [encodeNumber, LenFmt.width, BitVec.toNat_ofNat]
    omega
  | binary32 =>
    change v < 2 ^ 96 at hv
    refine ⟨?_, rfl, ?_⟩
    · simp only [Instr.wellFormed, LenFmt.width, BitVec.toNat_ofNat, decide_eq_true_eq]
      omega
    · simp only [encodeNumber, LenFmt.width, BitVec.toNat_ofNat]
      omega

theorem encodesTo_of_uop {f : LenFmt} {v : Nat} {i : Instr} (hv : v < 2 ^ Format.uop.bits)
    (h : decodeNumber .uop v = .ok i) : EncodesTo f i .uop v := by
  change v < 8 at hv
  interval_cases v <;> cases h <;> exact ⟨rfl, rfl, rfl⟩

/-- In the formats where every bit counts, what a word decodes to has the word's own number. -/
theorem encodesTo_of_decode {f : LenFmt} {w : FetchWord} {i : Instr} (h : decode w = .ok i)
    (hfmt : w.fmt = .req ∨ w.fmt = .resp ∨ w.fmt = .reading f ∨ w.fmt = .uop) :
    EncodesTo f i w.fmt (beNat w.bytes) := by
  obtain ⟨-, hfit, hnum⟩ := decode_eq_ok.1 h
  rcases hfmt with hf | hf | hf | hf <;> rw [hf] at hnum hfit ⊢
  · exact encodesTo_of_req hnum
  · exact encodesTo_of_resp hnum
  · exact encodesTo_of_reading hfit hnum
  · exact encodesTo_of_uop hfit hnum

/-- Settles O2: the number is the number of what it decodes to, and a word's bytes are those of its number. -/
theorem encodeOfDecode : Obligations.EncodeOfDecode := by
  intro f w i h hfmt
  obtain ⟨hlen, -, -⟩ := decode_eq_ok.1 h
  obtain ⟨hwf, hformat, hencode⟩ := encodesTo_of_decode h hfmt
  refine ⟨hwf, ?_⟩
  rw [encode, hformat, hencode]
  exact wordOf_beNat hlen

/-! ### The frames and the tables -/

/-- R73's mask selects the marker field. -/
theorem and_markerMask_eq_iff {v : Nat} (hv : v < 2 ^ 56) :
    v &&& 0xFFFFFF00000000 = 0x01030400000000 ↔ v / 2 ^ 32 = 0x010304 := by
  have hhigh : (v &&& 0xFFFFFF00000000) / 2 ^ 32 = v / 2 ^ 32 := by
    rw [Nat.and_div_two_pow, show 0xFFFFFF00000000 / 2 ^ 32 = 2 ^ 24 - 1 by norm_num, Nat.and_two_pow_sub_one_eq_mod]
    omega
  have hlow : (v &&& 0xFFFFFF00000000) % 2 ^ 32 = 0 := by
    rw [Nat.and_mod_two_pow, show 0xFFFFFF00000000 % 2 ^ 32 = 0 by norm_num, Nat.and_zero]
  omega

/-- Settles O5: both frames by the match of their number. -/
theorem framesMatchTheirMasks : Obligations.FramesMatchTheirMasks := by
  refine ⟨fun v hv => ?_, fun v hv => ?_⟩
  · rw [← decodeNumber_req]
    exact decode_beBytes .req hv
  · have hpay : BitVec.ofNat 32 (v % 2 ^ 32) = BitVec.ofNat 32 v := BitVec.eq_of_toNat_eq (by simp)
    simp only [and_markerMask_eq_iff hv, hpay]
    rw [← decodeNumber_resp]
    exact decode_beBytes .resp hv

/-- Settles O3: the tables' patterns word by word, and the priority as the decoder's table gives it. -/
theorem conditionWordsSelectOneOutcome : Obligations.ConditionWordsSelectOneOutcome :=
  ⟨by decide, by decide, Machine.decode_tcw, Machine.decode_boot⟩

/-- Settles O4: the words written out are run through the decoder; the reserved bits are those above a word's width. -/
theorem wordsOfTheTablesDecode : Obligations.WordsOfTheTablesDecode :=
  ⟨by decide, by decide, by decide, by decide, by decide, by decide, by decide, fun _ hv =>
    ⟨fun h => decode_beBytes_reserved .tcw h hv, fun h => decode_beBytes_reserved .boot h hv,
      fun h => decode_beBytes_reserved .uop h hv⟩⟩

namespace Machine

/-! ### The three formats as instructions -/

/-- The word of REQ is `REQ_CMD`, R71. -/
theorem encode_req_bytes (f : LenFmt) : (encode f .req).bytes = Config.reqCmd := beBytes_beNat Config.reqCmd

/-- Settles O17: the bytes of REQ's own word are those WRREQ sends. -/
theorem requestRowSendsItsFrame : Obligations.RequestRowSendsItsFrame :=
  fun s => ⟨rfl, by simp only [exec, execReq, execWrreq, sendRequest, encode_req_bytes]⟩

/-- A `MemRead` that has an answer is inside the bounds of R13. -/
theorem memRead_bounds {s : State} {k n : Nat} {bs : List Byte} (h : memRead s k n = some bs) :
    k + n ≤ s.rawlen ∧ k + n ≤ 1024 := by
  by_contra hn
  rw [memRead_eq_none hn] at h
  cases h

/-- The payload of a frame's seven bytes is the number of the last four, R73 and R141. -/
theorem u32be_eq_of_decode_resp {b6 b5 b4 b3 b2 b1 b0 : Byte} {v : Word32}
    (h : decode ⟨.resp, [b6, b5, b4, b3, b2, b1, b0]⟩ = .ok (.resp v)) : u32be b3 b2 b1 b0 = v := by
  obtain ⟨-, -, hnum⟩ := decode_eq_ok.1 h
  rw [decodeNumber_resp] at hnum
  split_ifs at hnum
  cases hnum
  refine BitVec.eq_of_toNat_eq ?_
  have h3 := b3.isLt
  rw [u32be_toNat, BitVec.toNat_ofNat]
  simp only [beNat, List.foldl_cons, List.foldl_nil]
  omega

/-- Where the seven bytes at the selected offset are a response frame, its payload is the payload of R140. -/
theorem payload_eq_of_decode_resp {s : State} {bs : List Byte} {v : Word32} (hread : memRead s s.idx 7 = some bs)
    (h : decode ⟨.resp, bs⟩ = .ok (.resp v)) : payload s = some v := by
  have hb := memRead_bounds hread
  have hframe : memRead s s.idx 7 = some ((List.range 7).map fun d => Memory.get s.rawbuf (s.idx + d)) := if_pos hb
  have hpay : memRead s (s.idx + Config.payOff) Config.payLen =
      some ((List.range 4).map fun d => Memory.get s.rawbuf (s.idx + 3 + d)) :=
    if_pos (by simpa [Nat.add_assoc] using hb)
  cases hframe.symm.trans hread
  rw [payload, hpay]
  exact congrArg some (u32be_eq_of_decode_resp h)

/-- Settles O18: ASM32 reads the payload of the frame that RESP decodes. -/
theorem responseRowIsWhatAsm32Reads : Obligations.ResponseRowIsWhatAsm32Reads := by
  refine ⟨fun _ _ => rfl, fun v s bs hread hdecode hfound => ?_⟩
  show execAsm32 s = execResp v s
  rw [execAsm32, payload_eq_of_decode_resp hread hdecode, execResp, ← hfound]

/-- Settles O19: the two records are the words of their instruction, and PUBLISH hands over the Reading held. -/
theorem readingRowIsTheRecordPublished : Obligations.ReadingRowIsTheRecordPublished :=
  ⟨fun t l => ⟨decodeOfEncode .binary64 (.reading t l) rfl,
    fun h => decodeOfEncode .binary32 (.reading t l) (decide_eq_true h)⟩, fun _ _ _ => rfl, fun _ => rfl⟩

/-! ### Which outcome and which boot event runs -/

/-- The seven outcomes are all that a tick condition word selects, R80. -/
theorem outcomeOf_mem : ∀ h o d a l f : Bool, outcomeOf h o d a l f ∈ tickOutcomes := by decide

/-- The three boot events are all that a boot word selects, R81. -/
theorem bootEventOf_mem : ∀ o c : Bool, bootEventOf o c ∈ bootEvents := by decide

/-- The outcome selected in RUN answers a next state. -/
theorem exec_tickInstr_next {s : State} (hm : s.mode = .run) : ∃ t, exec (tickInstr s) s = .next t := by
  rcases exec_tickInstr hm with ⟨-, -, hx⟩ | ⟨-, -, -, hx⟩ | ⟨-, -, -, -, hx⟩ | ⟨-, -, -, -, -, hx⟩ |
    ⟨-, -, -, -, -, -, hx⟩ | ⟨-, -, -, -, -, i, f, -, -, hx⟩ <;> exact ⟨_, hx⟩

/-- The boot event selected in BOOT answers a next state. -/
theorem exec_bootEventOf_next {s : State} (hm : s.mode = .boot) :
    ∃ t, exec (bootEventOf s.bin.openOk s.bin.chOpen) s = .next t := by
  have hx := takeBoot_boot s.bin hm
  rw [takeBoot, if_pos hm, runWord_eq (decode_bootWord s)] at hx
  exact ⟨_, hx⟩

/-- Settles O27: the one selected runs, and one that is not selected stops. -/
theorem exactlyOneOutcomeRuns : Obligations.ExactlyOneOutcomeRuns := by
  refine ⟨fun s hm => ?_, fun s hm j hj => ?_, fun s hm => ?_, fun s hm j hj => ?_⟩
  · exact ⟨tickInstr s, outcomeOf_mem .., exec_tickInstr_next hm,
      fun j hj hne => exec_tickOutcome_fault hj fun ⟨_, h⟩ => hne h.symm⟩
  · exact exec_tickOutcome_fault hj fun ⟨h, _⟩ => hm h
  · exact ⟨_, bootEventOf_mem .., exec_bootEventOf_next hm,
      fun j hj hne => exec_bootEvent_fault hj fun ⟨_, h⟩ => hne h.symm⟩
  · exact exec_bootEvent_fault hj fun ⟨h, _⟩ => hm h

/-- Settles O29: each boot event is the one its answers select. -/
theorem bootEventsSetTheMode : Obligations.BootEventsSetTheMode := by
  refine fun s hm => ⟨fun ho hc => ?_, fun ho => ?_, fun ho hc => ?_⟩
  · exact exec_bootOk_eq hm (by simp [bootEventOf, ho, hc])
  · exact exec_fatalOpen_eq hm (by simp [bootEventOf, ho])
  · exact exec_fatalClosed_eq hm (by simp [bootEventOf, ho, hc])

/-! ### What is sent -/

/-- The bytes sent between two states are one request or none. -/
def SendsAtMostOne (s t : State) : Prop := t.env.sent = s.env.sent ∨ t.env.sent = s.env.sent ++ Config.reqCmd

theorem WholeRequests.append_reqCmd {bs : List Byte} (h : WholeRequests bs) : WholeRequests (bs ++ Config.reqCmd) := by
  obtain ⟨k, rfl⟩ := h
  exact ⟨k + 1, by simp [List.replicate_succ']⟩

theorem SendsAtMostOne.wholeRequests {s t : State} (h : SendsAtMostOne s t) (hs : WholeRequests s.env.sent) :
    WholeRequests t.env.sent := by
  rcases h with h | h <;> rw [h]
  · exact hs
  · exact hs.append_reqCmd

/-- With no bytes available the request is written under DUE alone, R104. -/
theorem noavailRequest_sendsAtMostOne (s : State) : SendsAtMostOne s (noavailRequest s) := by
  unfold noavailRequest
  split_ifs
  · exact .inr rfl
  · exact .inl rfl

theorem exec_tickOutcome_sendsAtMostOne {s t : State} {i : Instr} (hi : i ∈ tickOutcomes) (h : exec i s = .next t) :
    SendsAtMostOne s t := by
  obtain ⟨hm, rfl⟩ := selected_of_exec_tickOutcome hi h
  rcases exec_tickInstr hm with ⟨-, -, hx⟩ | ⟨-, -, -, hx⟩ | ⟨-, -, -, -, hx⟩ | ⟨-, -, -, -, -, hx⟩ |
    ⟨-, -, -, -, -, -, hx⟩ | ⟨-, -, -, -, -, i, f, -, -, hx⟩ <;> cases hx.symm.trans h
  · exact .inl rfl
  · exact .inl rfl
  · exact .inl rfl
  · exact noavailRequest_sendsAtMostOne s
  · exact .inr rfl
  · exact .inr rfl

theorem exec_bootEvent_sendsAtMostOne {s t : State} {i : Instr} (hi : i ∈ bootEvents) (h : exec i s = .next t) :
    SendsAtMostOne s t := by
  obtain ⟨l, m, rfl⟩ := exec_bootEvent_next hi h
  exact .inl rfl

/-- A SCAN that does not stop writes its offset and its flag, R122. -/
theorem execScan_next {s t : State} (h : execScan s = .next t) : ∃ i f, t = { s with idx := i, syncFound := f } := by
  unfold execScan at h
  split at h
  · split at h <;> cases h
    exact ⟨_, _, rfl⟩
  · cases h

/-- An ASM32 that does not stop writes `value`, R140. -/
theorem execAsm32_next {s t : State} (h : execAsm32 s = .next t) : ∃ v, t = { s with value := v } := by
  unfold execAsm32 at h
  split at h <;> cases h
  exact ⟨_, rfl⟩

/-- An instruction that answers a next state sends one request or nothing. -/
theorem exec_sendsAtMostOne {s t : State} {i : Instr} (h : exec i s = .next t) : SendsAtMostOne s t := by
  cases i with
  | idle | skipClosed | skipNoavail | attShort | attFallback | attFound | halt =>
    exact exec_tickOutcome_sendsAtMostOne (by simp [tickOutcomes]) h
  | bootOk | fatalOpen | fatalClosed => exact exec_bootEvent_sendsAtMostOne (by simp [bootEvents]) h
  | req => cases h; exact .inr (by rw [chWrite_env, encode_req_bytes])
  | wrreq => cases h; exact .inr rfl
  | resp | reading | rdbuf | lenchk | scale | stamp | publish => cases h; exact .inl rfl
  | scan => obtain ⟨i, f, rfl⟩ := execScan_next h; exact .inl rfl
  | asm32 => obtain ⟨v, rfl⟩ := execAsm32_next h; exact .inl rfl

/-- So does a tick cut short by a reset, log entry 23. -/
theorem cutTick_sendsAtMostOne {s t : State} {done : Nat} (hout : s.out = TickOut.none) (h : cutTick done s = .next t) :
    SendsAtMostOne s t := by
  obtain ⟨tx, rd, pub, closed, hx, htx, -⟩ := cutTick_next hout done
  cases hx.symm.trans h
  rcases htx with rfl | rfl
  · exact .inl (List.append_nil _)
  · exact .inr rfl

/-- So does a step, whatever it takes. -/
theorem step_sendsAtMostOne {s t : State} (h : step s = .next t) : SendsAtMostOne s t := by
  rcases step_next_cases h with ⟨w, i, -, -, hx⟩ |
    ⟨-, rfl | rfl | ⟨b, done, -, hx⟩ | ⟨bs, rfl⟩ | ⟨b, -, hx⟩ | ⟨b, -, hx⟩⟩
  · exact (exec_sendsAtMostOne hx :)
  · exact .inl rfl
  · exact .inl rfl
  · exact (cutTick_sendsAtMostOne rfl hx :)
  · exact .inl rfl
  · exact (exec_sendsAtMostOne hx :)
  · exact (exec_sendsAtMostOne hx :)

/-- Settles O48: a step sends one request or nothing. -/
theorem onlyWholeRequestsAreSent : Obligations.OnlyWholeRequestsAreSent :=
  ⟨⟨0, rfl⟩, fun _ _ hs h => (step_sendsAtMostOne h).wholeRequests hs⟩

/-! ### Placing a word -/

theorem wordIs_eq_true {w : FetchWord} {i : Instr} : wordIs w i = true ↔ decode w = .ok i := by
  unfold wordIs
  split <;> simp_all

/-- The number of a boot word as its two bits. -/
theorem decodeNumber_boot : ∀ v < 4, decodeNumber .boot v = .ok (bootEventOf (bitOf v 1) (bitOf v 0)) := by decide

/-- The number of a tick condition word as its six bits. -/
theorem decodeNumber_tcw : ∀ v < 64, decodeNumber .tcw v =
    .ok (outcomeOf (bitOf v 5) (bitOf v 4) (bitOf v 3) (bitOf v 2) (bitOf v 1) (bitOf v 0)) := by decide

section Placing

variable {s : State} {w : FetchWord} {i : Instr}

/-- What a boot word decodes to is the event its two bits select. -/
theorem eq_bootEventOf_of_decode (h : decode w = .ok i) (hf : w.fmt = .boot) :
    bootEventOf (bitOf (beNat w.bytes) 1) (bitOf (beNat w.bytes) 0) = i := by
  obtain ⟨-, hfit, hnum⟩ := decode_eq_ok.1 h
  rw [hf] at hfit hnum
  simpa [decodeNumber_boot _ hfit] using hnum

/-- What a tick condition word decodes to is the outcome its six bits select. -/
theorem eq_outcomeOf_of_decode (h : decode w = .ok i) (hf : w.fmt = .tcw) :
    outcomeOf (bitOf (beNat w.bytes) 5) (bitOf (beNat w.bytes) 4) (bitOf (beNat w.bytes) 3) (bitOf (beNat w.bytes) 2)
      (bitOf (beNat w.bytes) 1) (bitOf (beNat w.bytes) 0) = i := by
  obtain ⟨-, hfit, hnum⟩ := decode_eq_ok.1 h
  rw [hf] at hfit hnum
  simpa [decodeNumber_tcw _ hfit] using hnum

/-! A word run from `seq`. -/

/-- What SCAN and ASM32 need of the buffer. -/
def HasRead (s : State) : Prop := 9 ≤ s.rawlen ∧ s.rawlen ≤ 1024 ∧ s.idx + 7 ≤ s.rawlen

theorem withRead_hasRead (s : State) : HasRead s.withRead := by
  unfold State.withRead
  split_ifs with h
  · exact h
  · simp [HasRead]

theorem placeWord_seq (ht : w.fmt ≠ .tcw) (hb : w.fmt ≠ .boot) : (s.placeWord w).seq = some w := by
  unfold State.placeWord
  split
  · contradiction
  · contradiction
  · split_ifs <;> rfl
  all_goals rfl

/-- What a word run from `seq` decodes to has the word's format. -/
theorem exists_format_eq_of_decode (h : decode w = .ok i) (ht : w.fmt ≠ .tcw) (hb : w.fmt ≠ .boot) :
    ∃ f, i.format f = w.fmt := by
  rcases hf : w.fmt with _ | _ | f | _ | _ | _
  case tcw => contradiction
  case boot => contradiction
  case reading => exact ⟨f, hf ▸ (encodesTo_of_decode h (by simp [hf])).format_eq⟩
  all_goals exact ⟨.binary64, hf ▸ (encodesTo_of_decode h (by simp [hf])).format_eq⟩

/-- SCAN and ASM32 are placed with a buffer they are defined on. -/
theorem placeWord_hasRead (h : decode w = .ok i) (ht : w.fmt ≠ .tcw) (hb : w.fmt ≠ .boot)
    (hi : i = .scan ∨ i = .asm32) : HasRead (s.placeWord w) := by
  have hf : w.fmt = .uop := by
    obtain ⟨f, hf⟩ := exists_format_eq_of_decode h ht hb
    rcases hi with rfl | rfl <;> exact hf.symm
  have hw : (wordIs w .scan || wordIs w .asm32) = true := by
    rcases hi with rfl | rfl <;> simp [wordIs_eq_true.2 h]
  simp only [State.placeWord, hf, hw]
  exact withRead_hasRead s

/-- An instruction of the formats run from `seq` answers a next state. -/
theorem exec_next_of_format {f : LenFmt} (ht : i.format f ≠ .tcw) (hb : i.format f ≠ .boot)
    (hread : i = .scan ∨ i = .asm32 → HasRead s) : ∃ t, exec i s = .next t := by
  cases i with
  | idle | skipClosed | skipNoavail | attShort | attFallback | attFound | halt => exact absurd rfl ht
  | bootOk | fatalOpen | fatalClosed => exact absurd rfl hb
  | req | resp | reading | wrreq | rdbuf | lenchk | scale | stamp | publish => exact ⟨_, rfl⟩
  | scan =>
    obtain ⟨h9, hcap, -⟩ := hread (.inl rfl)
    obtain ⟨j, found, -, hsel⟩ := scanResult_spec h9 hcap
    exact ⟨_, execScan_eq h9 hcap hsel⟩
  | asm32 =>
    obtain ⟨-, hcap, hidx⟩ := hread (.inr rfl)
    exact ⟨_, execAsm32_eq hidx hcap⟩

theorem step_placeWord_seq (h : decode w = .ok i) (ht : w.fmt ≠ .tcw) (hb : w.fmt ≠ .boot) :
    step (s.placeWord w) = exec i (s.placeWord w).afterSeq := by
  rw [step_seq (placeWord_seq ht hb), runWord_eq h]

theorem exec_placeWord_seq_next (h : decode w = .ok i) (ht : w.fmt ≠ .tcw) (hb : w.fmt ≠ .boot) :
    ∃ t, exec i (s.placeWord w).afterSeq = .next t := by
  obtain ⟨f, hf⟩ := exists_format_eq_of_decode h ht hb
  exact exec_next_of_format (hf ▸ ht) (hf ▸ hb) (placeWord_hasRead h ht hb)

/-! A boot word, run as the two answers placed. -/

/-- Two answers taken in BOOT run the event they select. -/
theorem step_boot {b : BootIn} {rest : List Input} (h : s.seq = none) (hi : s.env.inputs = .boot b :: rest)
    (hm : s.mode = .boot) : step s = exec (bootEventOf b.openOk b.chOpen) (s.bootState b rest) := by
  rw [step_input h hi]
  show takeBoot b (s.afterInput rest) = _
  rw [takeBoot, if_pos (show (s.afterInput rest).mode = .boot from hm), runWord_eq (decode_bootWord _)]
  rfl

/-- Two answers placed are taken next. -/
theorem step_withInput_boot (s : State) (b : BootIn) :
    step (s.withInput .boot (.boot b)) =
      exec (bootEventOf b.openOk b.chOpen) ((s.withInput .boot (.boot b)).bootState b s.env.inputs) :=
  step_boot rfl rfl rfl

theorem placeWord_boot (s : State) (hf : w.fmt = .boot) :
    s.placeWord w = s.withInput .boot (.boot ⟨bitOf (beNat w.bytes) 1, bitOf (beNat w.bytes) 0⟩) := by
  simp only [State.placeWord, hf]

theorem step_placeWord_boot (h : decode w = .ok i) (hf : w.fmt = .boot) :
    step (s.placeWord w) =
      exec i ((s.placeWord w).bootState ⟨bitOf (beNat w.bytes) 1, bitOf (beNat w.bytes) 0⟩ s.env.inputs) := by
  rw [← eq_bootEventOf_of_decode h hf, placeWord_boot s hf]
  exact step_withInput_boot s _

theorem step_placeWord_boot_next (s : State) (hf : w.fmt = .boot) : ∃ t, step (s.placeWord w) = .next t := by
  rw [placeWord_boot s hf, step_withInput_boot]
  exact exec_bootEventOf_next (s := State.bootState ..) rfl

/-! A tick condition word, run as the tick placed. -/

theorem bytesFor_length (lenok found : Bool) : (bytesFor lenok found).length = if lenok then 9 else 0 := by
  cases lenok <;> cases found <;> rfl

/-- The search of the nine bytes placed finds the marker where it is wanted. -/
theorem exists_selected_bytesFor (found : Bool) : ∃ j, Selected (bytesFor true found) j found := by
  cases found with
  | true => exact ⟨0, .inl ⟨rfl, by unfold FirstMarker MarkerAt; decide⟩⟩
  | false =>
    refine ⟨1, .inr ⟨rfl, fun j hj => ?_, rfl⟩⟩
    rw [bytesFor_length] at hj
    have hj' : j < 2 := by simpa using hj
    unfold MarkerAt
    interval_cases j <;> decide

/-- A tick placed with bytes available reads the bytes placed for it. -/
theorem readBytes_tickFor {v : Nat} (htin : s.tin = tickFor v) (ha : bitOf v 2 = true) :
    readBytes s = bytesFor (bitOf v 1) (bitOf v 0) := by
  rw [readBytes_eq, htin]
  refine List.take_of_length_le ?_
  simp only [tickFor, ha, bytesFor_length]
  split <;> decide

/-- The conditions of the tick placed select the outcome that the word's bits select. -/
theorem tickInstr_tickFor {v : Nat} (hwf : Memory.wf s.rawbuf) (htin : s.tin = tickFor v)
    (hcnt : s.cnt.val = 9 ↔ bitOf v 3 = true) :
    tickInstr s = outcomeOf (bitOf v 5) (bitOf v 4) (bitOf v 3) (bitOf v 2) (bitOf v 1) (bitOf v 0) := by
  have hhalt : s.tin.halt = bitOf v 5 := by rw [htin]; rfl
  have hopen : s.tin.chOpen = bitOf v 4 := by rw [htin]; rfl
  have havail : s.tin.rxAvail = if bitOf v 2 then 9 else 0 := by rw [htin]; rfl
  rcases hb5 : bitOf v 5 with _ | _
  case true => exact tickInstr_halt (hhalt.trans hb5)
  rcases hb4 : bitOf v 4 with _ | _
  case false => exact tickInstr_skipClosed (hhalt.trans hb5) (hopen.trans hb4)
  rcases hb3 : bitOf v 3 with _ | _
  case false => exact tickInstr_idle (hhalt.trans hb5) (hopen.trans hb4) (by simp [hcnt, hb3])
  rcases hb2 : bitOf v 2 with _ | _
  case false =>
    exact tickInstr_skipNoavail (hhalt.trans hb5) (hopen.trans hb4) (hcnt.2 hb3) (by simp [havail, hb2])
  have hread := readBytes_tickFor htin hb2
  have ha : s.tin.rxAvail ≠ 0 := by simp [havail, hb2]
  rcases hb1 : bitOf v 1 with _ | _
  case false =>
    exact tickInstr_attShort (hhalt.trans hb5) (hopen.trans hb4) (hcnt.2 hb3) ha
      (by simp [hread, hb1, bytesFor_length])
  obtain ⟨j, hsel⟩ := exists_selected_bytesFor (bitOf v 0)
  rw [← hb1, ← hread, ← buffer_readBuffer hwf] at hsel
  exact tickInstr_decoded (hhalt.trans hb5) (hopen.trans hb4) (hcnt.2 hb3) ha
    (by simp [hread, hb1, bytesFor_length]) hsel

/-- The counter value placed for the word's condition `due`. -/
def cntFor (v : Nat) : Fin Config.cycleLen := if bitOf v 3 then ⟨Config.duePhase, by decide⟩ else ⟨0, by decide⟩

theorem cntFor_val (v : Nat) : (cntFor v).val = 9 ↔ bitOf v 3 = true := by
  unfold cntFor
  split_ifs with h <;> simp [h]

/-- A tick placed is taken next. -/
theorem step_withInput_tick (s : State) (t : TickIn) :
    step (s.withInput .run (.tick t)) =
      exec (tickInstr ((s.withInput .run (.tick t)).tickState t s.env.inputs))
        ((s.withInput .run (.tick t)).tickState t s.env.inputs) :=
  step_tick rfl rfl rfl

theorem placeWord_tcw (s : State) (hf : w.fmt = .tcw) :
    s.placeWord w =
      { s with cnt := cntFor (beNat w.bytes) }.withInput .run (.tick (tickFor (beNat w.bytes))) := by
  simp only [State.placeWord, hf]
  rfl

theorem step_placeWord_tcw (hwf : Memory.wf s.rawbuf) (h : decode w = .ok i) (hf : w.fmt = .tcw) :
    step (s.placeWord w) =
      exec i ((s.placeWord w).tickState (tickFor (beNat w.bytes)) s.env.inputs) := by
  rw [placeWord_tcw s hf, step_withInput_tick, tickInstr_tickFor (v := beNat w.bytes) ?wf ?tin ?cnt,
    eq_outcomeOf_of_decode h hf]
  case wf => exact hwf
  case tin => rfl
  case cnt => exact cntFor_val _

theorem step_placeWord_tcw_next (s : State) (hf : w.fmt = .tcw) : ∃ t, step (s.placeWord w) = .next t := by
  rw [placeWord_tcw s hf, step_withInput_tick]
  exact exec_tickInstr_next rfl

end Placing

/-- Settles O36, format by format of the word placed. -/
theorem placedWordRunsNext : Obligations.PlacedWordRunsNext := by
  intro s w i h hwf
  refine ⟨step_placeWord_seq h, step_placeWord_boot h, fun hf => step_placeWord_tcw (hwf hf) h hf, ?_⟩
  by_cases ht : w.fmt = .tcw
  · exact step_placeWord_tcw_next s ht
  · by_cases hb : w.fmt = .boot
    · exact step_placeWord_boot_next s hb
    · rw [step_placeWord_seq h ht hb]
      exact exec_placeWord_seq_next h ht hb

end Machine

end Sys2Proof
end

section
/-! The statements of `40_poll_scheduler.md`: the instruction a step runs, the request and the read, the outcomes of a
tick whose channel is open, the attempt as its micro-operations, and what a tick, and ten of them, send, read and publish. -/

namespace Sys2Proof.Machine

variable {s : State}

/-! ### The instruction a step runs -/

/-- Settles O35: a word in `seq` is run as it stands, and the words formed from a tick's record and from the boot's answers
decode to the instruction that the step selects. -/
theorem stepRunsTheDecodedInstruction : Obligations.StepRunsTheDecodedInstruction := by
  refine ⟨fun s w i hseq hw => ?_, fun s t rest i hseq hin hm hw => ?_, fun s b rest i hseq hin hm hw => ?_⟩
  · rw [step_seq hseq, runWord_eq hw]
  · cases (decode_tcwWord _).symm.trans hw
    exact step_tick hseq hin hm
  · cases (decode_bootWord _).symm.trans hw
    exact step_boot hseq hin hm

/-! ### The request and the read -/

/-- Settles O6: the bytes of `REQ_CMD` written out are those WRREQ hands over. -/
theorem wrreqSendsTheRequest : Obligations.WrreqSendsTheRequest :=
  ⟨by decide, fun _ => rfl⟩

/-- A list written from index 0 is stored as R108 says. -/
theorem storedFromZero_write {m : Memory} (hwf : Memory.wf m) (bs : List Byte) :
    StoredFromZero m bs (Memory.write m 0 bs) := by
  refine ⟨fun k hk => ?_, fun k hk => ?_⟩
  · rw [Memory.get_write hwf, if_pos (by omega), Nat.sub_zero]
  · rw [Memory.get_write hwf, if_neg (by omega)]

/-- Settles O7: what RDBUF stores is the tick's answer. -/
theorem rdbufStoresTheAnswer : Obligations.RdbufStoresTheAnswer :=
  ⟨by decide, fun _ hwf => ⟨_, storedFromZero_write hwf _, rfl⟩⟩

/-! ### The outcomes of a tick whose channel is open -/

/-- After a due tick the counter is back at 0, R22. -/
theorem nextCnt_val_of_due {c : Fin Config.cycleLen} (h : c.val = 9) : (nextCnt c).val = 0 := by
  rw [nextCnt_val, if_pos h]

/-- Settles O20: a tick that is not due selects IDLE, which ends the tick and does no more. -/
theorem idleOnlyAdvances : Obligations.IdleOnlyAdvances := by
  intro s hm hh ho hc
  refine ⟨nextCnt s.cnt, by rw [nextCnt_val, if_neg hc], ?_⟩
  exact exec_idle_eq hm (tickInstr_idle hh ho hc)

/-- Settles O22: the gate decides whether the request is written before the tick ends. -/
theorem skipNoavailWritesOnlyUnderDue : Obligations.SkipNoavailWritesOnlyUnderDue := by
  intro s hm hh ho hc ha
  have hx := exec_skipNoavail_eq hm (tickInstr_skipNoavail hh ho hc ha)
  refine ⟨nextCnt s.cnt, nextCnt_val_of_due hc, fun hg => ?_, fun hg => ?_⟩
  · rw [hx, afterNoavail, noavailRequest_avail hg]
    rfl
  · rw [hx, afterNoavail, noavailRequest_due hg]
    rfl

/-- Settles O23: the short read selects ATT_SHORT, whose attempt publishes the Reading it found. -/
theorem attShortRepublishes : Obligations.AttShortRepublishes := by
  intro s hwf hm hh ho hc ha hl
  refine ⟨_, nextCnt s.cnt, storedFromZero_write hwf _, nextCnt_val_of_due hc, ?_⟩
  rw [exec_attShort_eq hm (tickInstr_attShort hh ho hc ha hl), attempt_short hl]
  rfl

/-- An attempt that reads nine bytes or more runs the outcome its search selects, and decodes at the offset selected. -/
theorem exec_decoded_eq {i : Nat} {f : Bool} (hwf : Memory.wf s.rawbuf) (hm : s.mode = .run) (hh : s.tin.halt = false)
    (ho : s.tin.chOpen = true) (hc : s.cnt.val = 9) (ha : s.tin.rxAvail ≠ 0) (hl : 9 ≤ s.tin.answer.length)
    (hsel : Selected s.tin.answer i f) :
    exec (if f then .attFound else .attFallback) s = .next (afterDecoded s i f) := by
  have hsel' : Selected (readBuffer s).buffer i f := by rwa [buffer_readBuffer hwf]
  have ht := tickInstr_decoded hh ho hc ha hl hsel'
  rw [← attempt_decoded hl hsel']
  cases f
  · exact exec_attFallback_eq hm ht
  · exact exec_attFound_eq hm ht

/-- Settles O24: the first marker is what the search selects. -/
theorem attFoundDecodesTheFirstFrame : Obligations.AttFoundDecodesTheFirstFrame := by
  intro s i hwf hm hh ho hc ha hl hfirst
  refine ⟨_, nextCnt s.cnt, _, _, storedFromZero_write hwf _, nextCnt_val_of_due hc, rfl, rfl, ?_⟩
  refine (exec_decoded_eq hwf hm hh ho hc ha hl (.inl ⟨rfl, hfirst⟩)).trans ?_
  rw [afterDecoded, buffer_readBuffer hwf]
  rfl

/-- Settles O25: without a marker the search selects the fallback offset. -/
theorem attFallbackDecodesAtLMinus8 : Obligations.AttFallbackDecodesAtLMinus8 := by
  intro s hwf hm hh ho hc ha hl hno
  have hi : s.tin.answer.length - 8 + 8 = s.tin.answer.length := by omega
  refine ⟨_, nextCnt s.cnt, _, _, storedFromZero_write hwf _, nextCnt_val_of_due hc, rfl, rfl, ?_⟩
  refine (exec_decoded_eq hwf hm hh ho hc ha hl (.inr ⟨rfl, hno, hi⟩)).trans ?_
  rw [afterDecoded, buffer_readBuffer hwf]
  rfl

/-! ### The attempt as its micro-operations -/

theorem andThen_assoc (o : Host.Outcome State Fault Refusal) (f g : State → Host.Outcome State Fault Refusal) :
    andThen (andThen o f) g = andThen o fun s => andThen (f s) g := by
  cases o <;> rfl

theorem runAll_append (is js : List Instr) (s : State) : runAll (is ++ js) s = andThen (runAll is s) (runAll js) := by
  induction is generalizing s with
  | nil => rfl
  | cons i is ih => simp only [List.cons_append, runAll, andThen_assoc, funext ih]

/-- The micro-operations of an attempt after its length check has passed, R106. -/
theorem runAll_decode (s : State) :
    runAll [.scan, .asm32, .scale, .stamp, .publish] s = andThen (decodeChain s) execPublish := by
  simp only [decodeChain, andThen_assoc]
  rfl

/-- The flag after LENCHK in an attempt, R120: kept if nine bytes or more were read. -/
theorem decOkAfterLenchk_readBuffer (s : State) :
    decOkAfterLenchk (readBuffer s) = if 9 ≤ (readBytes s).length then s.decOk else false := by
  simp only [decOkAfterLenchk, longEnough_readBuffer, decide_eq_true_eq]
  rfl

/-- The first three micro-operations of an attempt, R106. -/
theorem runAll_acquire (s : State) :
    runAll [.wrreq, .rdbuf, .lenchk] s = .next { readBuffer (sendRequest s) with
      decOk := if 9 ≤ (readBytes s).length then s.decOk else false } := by
  rw [← readBytes_sendRequest, ← sendRequest_decOk, ← decOkAfterLenchk_readBuffer]
  rfl

/-- The four micro-operations of an attempt with a short read leave what the tick's end makes into its result. -/
theorem runAll_short (hl : (readBytes s).length < 9) :
    ∃ u, runAll [.wrreq, .rdbuf, .lenchk, .publish] s = .next u ∧ u.cnt = s.cnt ∧
      afterShort s = endTick .attShort u := by
  have hrun := runAll_append [.wrreq, .rdbuf, .lenchk] [.publish] s
  rw [runAll_acquire, if_neg (not_le.2 hl)] at hrun
  exact ⟨_, hrun, rfl, rfl⟩

/-- So do the eight of an attempt that decodes. -/
theorem runAll_decoded (hl : 9 ≤ (readBytes s).length) {i : Nat} {f : Bool}
    (hsel : Selected (readBuffer s).buffer i f) :
    ∃ u, runAll [.wrreq, .rdbuf, .lenchk, .scan, .asm32, .scale, .stamp, .publish] s = .next u ∧ u.cnt = s.cnt ∧
      afterDecoded s i f = endTick (if f then .attFound else .attFallback) u := by
  have hchain := decodeChain_eq (s := readBuffer (sendRequest s)) hl (readBytes_length_le s) hsel
  have hrun := runAll_append [.wrreq, .rdbuf, .lenchk] [.scan, .asm32, .scale, .stamp, .publish] s
  rw [runAll_acquire, if_pos hl, andThen_next, runAll_decode] at hrun
  exact ⟨_, hrun.trans (congrArg (andThen · execPublish) hchain), rfl, rfl⟩

/-- An ATT_SHORT that answers a next state had a short read, R120. -/
theorem exec_attShort_next {t : State} (h : exec .attShort s = .next t) :
    (readBytes s).length < 9 ∧ t = afterShort s := by
  obtain ⟨hm, ht⟩ := selected_of_exec_tickOutcome (by simp [tickOutcomes]) h
  rcases exec_tickInstr hm with ⟨-, hi, -⟩ | ⟨-, -, hi, -⟩ | ⟨-, -, -, hi, -⟩ | ⟨-, -, -, -, hi, -⟩ |
    ⟨-, -, -, -, hl, hi, hx⟩ | ⟨-, -, -, -, -, i, f, -, hi, -⟩
  · cases ht.symm.trans hi
  · cases ht.symm.trans hi
  · cases ht.symm.trans hi
  · cases ht.symm.trans hi
  · rw [hi] at hx
    cases hx.symm.trans h
    exact ⟨hl, rfl⟩
  · cases f <;> cases ht.symm.trans hi

/-- The outcome of an attempt that decodes tells what its search found, R80. -/
theorem decodedInstr_inj : ∀ f f' : Bool,
    (if f then Instr.attFound else .attFallback) = (if f' then .attFound else .attFallback) → f = f' := by
  decide

/-- An ATT_FOUND or ATT_FALLBACK that answers a next state decoded at the offset its search selected, R123 and R124. -/
theorem exec_decoded_next {f : Bool} {t : State} (h : exec (if f then .attFound else .attFallback) s = .next t) :
    9 ≤ (readBytes s).length ∧ ∃ i, Selected (readBuffer s).buffer i f ∧ t = afterDecoded s i f := by
  obtain ⟨hm, ht⟩ := selected_of_exec_tickOutcome (by cases f <;> simp [tickOutcomes]) h
  rcases exec_tickInstr hm with ⟨-, hi, -⟩ | ⟨-, -, hi, -⟩ | ⟨-, -, -, hi, -⟩ | ⟨-, -, -, -, hi, -⟩ |
    ⟨-, -, -, -, -, hi, -⟩ | ⟨-, -, -, -, hl, i, f', hsel, hi, hx⟩
  · cases f <;> cases ht.symm.trans hi
  · cases f <;> cases ht.symm.trans hi
  · cases f <;> cases ht.symm.trans hi
  · cases f <;> cases ht.symm.trans hi
  · cases f <;> cases ht.symm.trans hi
  · obtain rfl := decodedInstr_inj f f' (ht.symm.trans hi)
    rw [ht] at hx
    cases hx.symm.trans h
    exact ⟨hl, i, hsel, rfl⟩

/-- Such an attempt is its eight micro-operations and the tick's end, R106. -/
theorem exec_decoded_microOps {f : Bool} {t : State} (h : exec (if f then .attFound else .attFallback) s = .next t) :
    ∃ u c, runAll [.wrreq, .rdbuf, .lenchk, .scan, .asm32, .scale, .stamp, .publish] s = .next u ∧
      c.val = (s.cnt.val + 1) % 10 ∧
      t = { u with cnt := c, out := { u.out with outcome := some (if f then .attFound else .attFallback) } } := by
  obtain ⟨hl, i, hsel, rfl⟩ := exec_decoded_next h
  obtain ⟨u, hu, hc, ht⟩ := runAll_decoded hl hsel
  exact ⟨u, _, hu, hc ▸ nextCnt_val_mod u.cnt, ht⟩

/-- Settles O28: the results of the attempts are their micro-operations' with the tick's end. -/
theorem attemptIsItsMicroOperations : Obligations.AttemptIsItsMicroOperations := by
  refine fun s t => ⟨fun h => ?_, exec_decoded_microOps (f := true), exec_decoded_microOps (f := false)⟩
  obtain ⟨hl, rfl⟩ := exec_attShort_next h
  obtain ⟨u, hu, hc, ht⟩ := runAll_short hl
  exact ⟨u, _, hu, hc ▸ nextCnt_val_mod u.cnt, ht⟩

/-! ### What a tick sends, reads and publishes -/

/-- Settles O42: of the outcomes of a tick an attempt sends the request, and SKIP_NOAVAIL does where the gate is DUE. -/
theorem requestWrittenExactlyWhen : Obligations.RequestWrittenExactlyWhen := by
  intro s t rest hseq hin hm
  rcases tick_cases hseq hin hm with ⟨hh, hx⟩ | ⟨hh, ho, hx⟩ | ⟨hh, ho, hc, hx⟩ | ⟨hh, ho, hc, ha, hx⟩ |
    ⟨hh, ho, hc, ha, hl, hx⟩ | ⟨hh, ho, hc, ha, hl, i, f, hsel, hx⟩ <;> refine ⟨_, hx, ?_⟩
  · simp [hh, TickOut.none]
  · simp [ho, TickOut.none]
  · simp [hc, TickOut.none]
  · cases hg : s.cfg.reqGate
    · simp [ha, hg, afterNoavail, noavailRequest_avail, TickOut.none]
    · simp [hh, ho, hc, hg, afterNoavail, noavailRequest_due]
  · simp [hh, ho, hc, ha]
  · simp [hh, ho, hc, ha]

/-- Settles O43: of the outcomes of a tick the attempts read and publish, and SKIP_CLOSED pulses. -/
theorem readAndPublishExactlyInAttempts : Obligations.ReadAndPublishExactlyInAttempts := by
  intro s t rest hseq hin hm
  rcases tick_cases hseq hin hm with ⟨hh, hx⟩ | ⟨hh, ho, hx⟩ | ⟨hh, ho, hc, hx⟩ | ⟨hh, ho, hc, ha, hx⟩ |
    ⟨hh, ho, hc, ha, hl, hx⟩ | ⟨hh, ho, hc, ha, hl, i, f, hsel, hx⟩ <;> refine ⟨_, hx, ?_⟩
  · simp [hh, TickOut.none]
  · simp [hh, ho, TickOut.none]
  · simp [ho, hc, TickOut.none]
  · simp [ho, ha, TickOut.none]
  · simp [hh, ho, hc, ha, readSize, TickOut.none]
  · simp [hh, ho, hc, ha, readSize, TickOut.none]

/-! ### Ten ticks -/

/-- How many of the next `n` ticks are due when the counter is at `c`, R102. -/
def dueTicks : Nat → Fin Config.cycleLen → Nat
  | 0, _ => 0
  | n + 1, c => (if c.val = 9 then 1 else 0) + dueTicks n (nextCnt c)

/-- In ten ticks the counter comes back to where it was, R22. -/
theorem nextCnt_iterate_ten : ∀ c, nextCnt^[10] c = c := by decide

/-- Of ten ticks one is due, R109. -/
theorem dueTicks_ten : ∀ c, dueTicks 10 c = 1 := by decide

/-- From `s` to `u` at most `d` records were published and `d` requests sent, and exactly `d` if the ticks were `served`:
taken with the channel open and bytes available. -/
structure AttemptsWithin (d : Nat) (served : Prop) (s u : State) : Prop where
  sink_le : u.env.sink.length ≤ s.env.sink.length + d
  sent_le : u.env.sent.length ≤ s.env.sent.length + 8 * d
  sink_eq : served → u.env.sink.length = s.env.sink.length + d
  sent_eq : served → u.env.sent.length = s.env.sent.length + 8 * d

theorem AttemptsWithin.trans {d d' : Nat} {p q r : Prop} {s u v : State} (h : AttemptsWithin d p s u)
    (h' : AttemptsWithin d' q u v) (hp : r → p) (hq : r → q) : AttemptsWithin (d + d') r s v where
  sink_le := by linarith [h.sink_le, h'.sink_le]
  sent_le := by linarith [h.sent_le, h'.sent_le]
  sink_eq := fun hr => by linarith [h.sink_eq (hp hr), h'.sink_eq (hq hr)]
  sent_eq := fun hr => by linarith [h.sent_eq (hp hr), h'.sent_eq (hq hr)]

/-- Nothing was published and nothing sent. -/
theorem AttemptsWithin.of_quiet {d : Nat} {served : Prop} {s u : State} (hd : served → d = 0)
    (hsink : u.env.sink = s.env.sink) (hsent : u.env.sent = s.env.sent) : AttemptsWithin d served s u where
  sink_le := by simp [hsink]
  sent_le := by simp [hsent]
  sink_eq := fun h => by simp [hsink, hd h]
  sent_eq := fun h => by simp [hsent, hd h]

/-- A due tick that makes no attempt publishes nothing, and sends one request or none. -/
theorem AttemptsWithin.of_noAttempt {served : Prop} {s u : State} (hserved : ¬ served)
    (hsink : u.env.sink = s.env.sink) (hsent : SendsAtMostOne s u) : AttemptsWithin 1 served s u where
  sink_le := by simp [hsink]
  sent_le := by rcases hsent with h | h <;> simp [h, reqCmd_length]
  sink_eq := fun h => absurd h hserved
  sent_eq := fun h => absurd h hserved

/-- An attempt publishes one record and sends one request, R106. -/
theorem AttemptsWithin.of_attempt {served : Prop} {s u : State}
    (hsink : u.env.sink = s.env.sink ++ [u.reading]) (hsent : u.env.sent = s.env.sent ++ Config.reqCmd) :
    AttemptsWithin 1 served s u where
  sink_le := by simp [hsink]
  sent_le := by simp [hsent, reqCmd_length]
  sink_eq := fun _ => by simp [hsink]
  sent_eq := fun _ => by simp [hsent, reqCmd_length]

/-- What a tick in RUN that is not HALT does for a run of ticks: it advances the counter, and makes at most one attempt. -/
theorem tick_attemptsWithin {t : TickIn} {rest : List Input} (hseq : s.seq = none)
    (hin : s.env.inputs = .tick t :: rest) (hm : s.mode = .run) (hh : t.halt = false) :
    ∃ u, step s = .next u ∧ u.seq = none ∧ u.mode = .run ∧ u.env.inputs = rest ∧ u.cnt = nextCnt s.cnt ∧
      AttemptsWithin (if s.cnt.val = 9 then 1 else 0) (t.chOpen = true ∧ t.rxAvail ≠ 0) s u := by
  rcases tick_cases hseq hin hm with ⟨hh', -⟩ | ⟨-, ho, hx⟩ | ⟨-, ho, hc, hx⟩ | ⟨-, ho, hc, ha, hx⟩ |
    ⟨-, ho, hc, ha, hl, hx⟩ | ⟨-, ho, hc, ha, hl, i, f, -, hx⟩
  · exact absurd hh' (by simp [hh])
  all_goals refine ⟨_, hx, by simpa using hseq, by simpa using hm, by simp, by simp, ?_⟩
  · exact .of_quiet (by simp [ho]) rfl rfl
  · exact .of_quiet (by simp [hc]) rfl rfl
  · rw [if_pos hc]
    exact .of_noAttempt (by simp [ha]) (by simp) (noavailRequest_sendsAtMostOne (s.tickState t rest) :)
  · rw [if_pos hc]
    exact .of_attempt (by simp) (by simp)
  · rw [if_pos hc]
    exact .of_attempt (by simp) (by simp)

/-- A run of ticks in RUN, none of them HALT, makes at most as many attempts as ticks of it are due, and all of them if every
tick has the channel open and bytes available. -/
theorem run_ticks {ts : List TickIn} {rest : List Input} (hseq : s.seq = none) (hm : s.mode = .run)
    (hin : s.env.inputs = ts.map Input.tick ++ rest) (hh : ∀ t ∈ ts, t.halt = false) :
    ∃ u, Host.Core.run Sys2Proof.core ts.length s = .next u ∧ u.mode = .run ∧ u.env.inputs = rest ∧
      u.cnt = nextCnt^[ts.length] s.cnt ∧
      AttemptsWithin (dueTicks ts.length s.cnt) (∀ t ∈ ts, t.chOpen = true ∧ t.rxAvail ≠ 0) s u := by
  induction ts generalizing s with
  | nil => exact ⟨s, rfl, hm, hin, rfl, .of_quiet (fun _ => rfl) rfl rfl⟩
  | cons t ts ih =>
    rw [List.forall_mem_cons] at hh
    obtain ⟨u, hstep, hseq', hm', hin', hcnt, hatt⟩ := tick_attemptsWithin hseq hin hm hh.1
    obtain ⟨v, hrun, hmv, hinv, hcntv, hattv⟩ := ih hseq' hm' hin' hh.2
    rw [hcnt] at hcntv hattv
    refine ⟨v, (run_succ hstep).trans hrun, hmv, hinv, hcntv, hatt.trans hattv ?_ ?_⟩
    · exact fun hr => hr t List.mem_cons_self
    · exact fun hr t' ht' => hr t' (List.mem_cons_of_mem t ht')

/-- Settles O49: exactly one of ten ticks is due. -/
theorem tenTicksHoldOneAttempt : Obligations.TenTicksHoldOneAttempt := by
  intro s ts rest hseq hm hlen hin hh
  obtain ⟨u, hrun, hmu, hinu, hcnt, hatt⟩ := run_ticks hseq hm hin hh
  rw [hlen] at hrun hcnt hatt
  rw [nextCnt_iterate_ten] at hcnt
  rw [dueTicks_ten] at hatt
  exact ⟨u, hrun, hmu, hcnt, hinu, hatt.sink_le, hatt.sent_le, fun h => ⟨hatt.sink_eq h, hatt.sent_eq h⟩⟩

end Sys2Proof.Machine
end

section
/-! The statements of `41_frame_sync.md`: the length check, and the offset the search ends with. -/

namespace Sys2Proof.Machine

variable {s : State}

/-! ### The length check -/

/-- LENCHK on a buffer of nine bytes or more, R120: the flag is kept, so nothing changes. -/
theorem execLenchk_long (h : 9 ≤ s.rawlen) : execLenchk s = .next s := by
  simp [execLenchk, decOkAfterLenchk, longEnough, h]

/-- LENCHK on fewer than nine bytes, R120. -/
theorem execLenchk_short (h : s.rawlen < 9) : execLenchk s = .next { s with decOk := false } := by
  simp [execLenchk, decOkAfterLenchk, longEnough, h]

/-- Settles O8: the two sides of R120's comparison. -/
theorem lenchkClearsOnlyOnShort : Obligations.LenchkClearsOnlyOnShort :=
  ⟨by decide, fun _ => ⟨execLenchk_short, execLenchk_long⟩⟩

/-! ### The search -/

/-- What the search of the stored bytes ends with, in terms of `rawlen`, R123 and R124. -/
theorem selected_buffer {i : Nat} {f : Bool} (h : Selected s.buffer i f) :
    (f = true ∧ i + 8 ≤ s.rawlen ∧ MarkerAt s.buffer i ∧ ∀ j, j < i → ¬ MarkerAt s.buffer j) ∨
      (f = false ∧ i + 8 = s.rawlen ∧ ∀ j, j + 8 ≤ s.rawlen → ¬ MarkerAt s.buffer j) := by
  rw [← buffer_length s]
  rcases h with found | ⟨hf, hno, hi⟩
  · exact .inl found
  · exact .inr ⟨hf, hi, hno⟩

/-- Settles O9: the search of nine bytes or more ends with the offset and the flag of R125, and SCAN writes these two. -/
theorem scanSelectsFirstMarkerOrFallback : Obligations.ScanSelectsFirstMarkerOrFallback := by
  refine ⟨by decide, fun s h9 hc => ?_⟩
  obtain ⟨i, f, -, hsel⟩ := scanResult_spec h9 hc
  exact ⟨i, f, execScan_eq h9 hc hsel, selected_buffer hsel⟩

/-- Settles O10: the length test before the search fails. -/
theorem scanStopsBelowNine : Obligations.ScanStopsBelowNine :=
  fun _ h => execScan_short h

end Sys2Proof.Machine
end

section
/-! The statements of `42_fixed_point_scaler.md`: the payload as a number, the number as a floating-point word, and the
Reading made of it. -/

namespace Sys2Proof.Machine

/-! ### The payload as a number -/

/-- The payload of R140 in the stored bytes' own terms. -/
theorem payloadAt_buffer {s : State} {i : Nat} (h : i + 7 ≤ s.rawlen) :
    payloadAt s.buffer i = u32be (Memory.get s.rawbuf (i + 3)) (Memory.get s.rawbuf (i + 4))
      (Memory.get s.rawbuf (i + 5)) (Memory.get s.rawbuf (i + 6)) := by
  rw [payloadAt, buffer_getD (by omega), buffer_getD (by omega), buffer_getD (by omega), buffer_getD (by omega)]

/-- Settles O11: ASM32 writes the payload, whose number is the sum of R141. -/
theorem asm32IsBigEndian : Obligations.Asm32IsBigEndian := by
  refine ⟨by decide, fun s hi hc => ⟨_, execAsm32_eq hi hc, ?_⟩⟩
  rw [payloadAt_buffer hi, u32be_toNat]

/-- A word's concatenation with one byte more, as a number. -/
theorem toNat_append_byte {w : Nat} (x : BitVec w) (b : Byte) : (x ++ b).toNat = x.toNat * 2 ^ 8 + b.toNat := by
  rw [BitVec.toNat_append, ← Nat.shiftLeft_add_eq_or_of_lt b.isLt, Nat.shiftLeft_eq]

/-- R141: the sum is the concatenation. -/
theorem u32be_eq_append (b3 b2 b1 b0 : Byte) : u32be b3 b2 b1 b0 = b3 ++ b2 ++ b1 ++ b0 := by
  refine BitVec.eq_of_toNat_eq ?_
  rw [u32be_toNat, toNat_append_byte, toNat_append_byte, toNat_append_byte]
  ring

/-- R141: every 32-bit number is the number of its four bytes. -/
theorem exists_u32be_eq (v : Word32) : ∃ b3 b2 b1 b0, u32be b3 b2 b1 b0 = v := by
  refine ⟨.ofNat 8 (v.toNat / 2 ^ 24), .ofNat 8 (v.toNat / 2 ^ 16), .ofNat 8 (v.toNat / 2 ^ 8), .ofNat 8 v.toNat,
    BitVec.eq_of_toNat_eq ?_⟩
  have hv := v.isLt
  simp only [u32be_toNat, BitVec.toNat_ofNat]
  omega

/-- R141: distinct bytes give distinct numbers. -/
theorem u32be_inj {b3 b2 b1 b0 c3 c2 c1 c0 : Byte} (h : u32be b3 b2 b1 b0 = u32be c3 c2 c1 c0) :
    b3 = c3 ∧ b2 = c2 ∧ b1 = c1 ∧ b0 = c0 := by
  have hsum := congrArg BitVec.toNat h
  rw [u32be_toNat, u32be_toNat] at hsum
  simp only [← BitVec.toNat_inj]
  omega

/-- Settles O13. -/
theorem u32beIsABijection : Obligations.U32beIsABijection :=
  ⟨fun b3 b2 b1 b0 => ⟨u32be_toNat b3 b2 b1 b0, u32be_eq_append b3 b2 b1 b0⟩, exists_u32be_eq,
    fun _ _ _ _ _ _ _ _ => u32be_inj⟩

/-! ### The significand of 24 bits -/

theorem roundedSignificand_eq (n e : Nat) : roundedSignificand n e =
    if 2 ^ (e - 23 - 1) < n % 2 ^ (e - 23) ∨ (n % 2 ^ (e - 23) = 2 ^ (e - 23 - 1) ∧ n / 2 ^ (e - 23) % 2 = 1) then
      n / 2 ^ (e - 23) + 1
    else n / 2 ^ (e - 23) := rfl

/-- Rounding never goes below the quotient. -/
theorem div_le_roundedSignificand (n e : Nat) : n / 2 ^ (e - 23) ≤ roundedSignificand n e := by
  rw [roundedSignificand_eq]
  split_ifs <;> omega

/-- Rounding adds at most one to the quotient. -/
theorem roundedSignificand_le (n e : Nat) : roundedSignificand n e ≤ n / 2 ^ (e - 23) + 1 := by
  rw [roundedSignificand_eq]
  split_ifs <;> omega

/-- A number of at most 24 bits has no surplus bits to round. -/
theorem roundedSignificand_eq_self {n e : Nat} (he : e ≤ 23) : roundedSignificand n e = n := by
  rw [roundedSignificand_eq, Nat.sub_eq_zero_of_le he]
  simp [Nat.mod_one]

/-- R145: the nearest integer to `n / 2^(e-23)`, the even one on a tie. -/
theorem roundedSignificand_nearest (n : Nat) {e : Nat} (he : 23 < e) :
    2 * n ≤ (2 * roundedSignificand n e + 1) * 2 ^ (e - 23) ∧
    2 * roundedSignificand n e * 2 ^ (e - 23) ≤ 2 * n + 2 ^ (e - 23) ∧
    ((2 * n = (2 * roundedSignificand n e + 1) * 2 ^ (e - 23) ∨
        2 * roundedSignificand n e * 2 ^ (e - 23) = 2 * n + 2 ^ (e - 23)) → roundedSignificand n e % 2 = 0) := by
  have hhalf : 2 ^ (e - 23) = 2 * 2 ^ (e - 23 - 1) := by rw [← pow_succ']; congr 1; omega
  have hdiv := Nat.div_add_mod' n (2 ^ (e - 23))
  have hlt := Nat.mod_lt n (Nat.two_pow_pos (e - 23))
  rw [roundedSignificand_eq]
  split_ifs with hup <;> simp only [add_mul, mul_add, mul_assoc, one_mul, mul_one] <;> omega

/-- Rounding at one place keeps the order. -/
theorem roundedSignificand_mono {n n' : Nat} (e : Nat) (h : n ≤ n') :
    roundedSignificand n e ≤ roundedSignificand n' e := by
  rcases (Nat.div_le_div_right (c := 2 ^ (e - 23)) h).lt_or_eq with hlt | heq
  · calc roundedSignificand n e ≤ n / 2 ^ (e - 23) + 1 := roundedSignificand_le n e
      _ ≤ n' / 2 ^ (e - 23) := hlt
      _ ≤ roundedSignificand n' e := div_le_roundedSignificand n' e
  · have hdiv := Nat.div_add_mod' n (2 ^ (e - 23))
    have hdiv' := Nat.div_add_mod' n' (2 ^ (e - 23))
    rw [heq] at hdiv
    rw [roundedSignificand_eq, roundedSignificand_eq, heq]
    split_ifs <;> omega

/-- Doubling a number moves its rounding up by one place. -/
theorem roundedSignificand_double (n : Nat) {e : Nat} (he : 23 < e) :
    roundedSignificand (2 * n) (e + 1) = roundedSignificand n e := by
  have hs : 2 ^ (e + 1 - 23) = 2 * 2 ^ (e - 23) := by rw [← pow_succ']; congr 1; omega
  have hh : 2 ^ (e + 1 - 23 - 1) = 2 * 2 ^ (e - 23 - 1) := by rw [← pow_succ']; congr 1; omega
  rw [roundedSignificand_eq, roundedSignificand_eq, hs, hh, Nat.mul_div_mul_left _ _ two_pos, Nat.mul_mod_mul_left]
  exact if_congr (by omega) rfl rfl

/-- A number of 25 bits that ends in 0 loses nothing. -/
theorem roundedSignificand_double_exact (n : Nat) : roundedSignificand (2 * n) 24 = n := by
  simp [roundedSignificand_eq]

/-- The integer `n` rounded to 24 significant bits. -/
def roundTo24Bits (n : Nat) : Nat := roundedSignificand n n.log2 * 2 ^ (n.log2 - 23)

theorem roundTo24Bits_eq_self {n : Nat} (h : n.log2 ≤ 23) : roundTo24Bits n = n := by
  rw [roundTo24Bits, roundedSignificand_eq_self h, Nat.sub_eq_zero_of_le h, pow_zero, mul_one]

theorem two_pow_log2_split {n : Nat} (h : 23 < n.log2) : 2 ^ n.log2 = 2 ^ 23 * 2 ^ (n.log2 - 23) := by
  rw [← pow_add]; congr 1; omega

theorem two_pow_23_le_roundedSignificand {n : Nat} (h : 23 < n.log2) : 2 ^ 23 ≤ roundedSignificand n n.log2 := by
  refine le_trans ?_ (div_le_roundedSignificand n n.log2)
  rw [Nat.le_div_iff_mul_le (Nat.two_pow_pos _), ← two_pow_log2_split h]
  exact Nat.log2_self_le (by rintro rfl; simp at h)

theorem roundedSignificand_le_two_pow_24 {n : Nat} (h : 23 < n.log2) : roundedSignificand n n.log2 ≤ 2 ^ 24 := by
  refine (roundedSignificand_le n n.log2).trans (Nat.succ_le_of_lt ?_)
  rw [Nat.div_lt_iff_lt_mul (Nat.two_pow_pos _), pow_succ, mul_right_comm, ← two_pow_log2_split h, ← pow_succ]
  exact Nat.lt_log2_self

/-- Rounding does not go below a number's highest bit. -/
theorem two_pow_log2_le_roundTo24Bits {n : Nat} (h0 : n ≠ 0) : 2 ^ n.log2 ≤ roundTo24Bits n := by
  rcases le_or_gt n.log2 23 with h | h
  · rw [roundTo24Bits_eq_self h]
    exact Nat.log2_self_le h0
  · rw [roundTo24Bits, two_pow_log2_split h]
    exact Nat.mul_le_mul_right _ (two_pow_23_le_roundedSignificand h)

/-- Rounding goes at most up to the next power of two. -/
theorem roundTo24Bits_le_two_pow (n : Nat) : roundTo24Bits n ≤ 2 ^ (n.log2 + 1) := by
  rcases le_or_gt n.log2 23 with h | h
  · rw [roundTo24Bits_eq_self h]
    exact Nat.lt_log2_self.le
  · rw [roundTo24Bits, pow_succ, two_pow_log2_split h, mul_right_comm, ← pow_succ]
    exact Nat.mul_le_mul_right _ (roundedSignificand_le_two_pow_24 h)

/-- Rounding keeps the order: it keeps it within the numbers of one length, and no rounding passes a power of two. -/
theorem roundTo24Bits_mono {n n' : Nat} (h : n ≤ n') : roundTo24Bits n ≤ roundTo24Bits n' := by
  rcases (show n.log2 ≤ n'.log2 by simpa [Nat.log2_eq_log_two] using Nat.log_mono_right h).lt_or_eq with hlt | heq
  · have h0 : n' ≠ 0 := by rintro rfl; simp at hlt
    calc roundTo24Bits n ≤ 2 ^ (n.log2 + 1) := roundTo24Bits_le_two_pow n
      _ ≤ 2 ^ n'.log2 := Nat.pow_le_pow_right two_pos hlt
      _ ≤ roundTo24Bits n' := two_pow_log2_le_roundTo24Bits h0
  · rw [roundTo24Bits, roundTo24Bits, heq]
    exact Nat.mul_le_mul_right _ (roundedSignificand_mono _ h)

/-- Rounding commutes with doubling. -/
theorem roundTo24Bits_double (n : Nat) : roundTo24Bits (2 * n) = 2 * roundTo24Bits n := by
  obtain rfl | h0 := eq_or_ne n 0
  · rfl
  have hlog : (2 * n).log2 = n.log2 + 1 := Nat.log2_two_mul h0
  rcases lt_trichotomy n.log2 23 with h | h | h
  · rw [roundTo24Bits_eq_self (by omega), roundTo24Bits_eq_self h.le]
  · rw [roundTo24Bits_eq_self h.le, roundTo24Bits, hlog, h, roundedSignificand_double_exact]
    omega
  · rw [roundTo24Bits, roundTo24Bits, hlog, roundedSignificand_double n h, Nat.sub_add_comm h.le, pow_succ]
    ring

/-! ### The scaling's words -/

/-- The bits of a format's fraction field, R144. -/
def fracBits : LenFmt → Nat
  | .binary64 => 52
  | .binary32 => 23

/-- The word is positive and normal: its exponent field is R145's for the highest bit `e`, and its fraction is the
significand `m` without its leading 1. -/
structure IsNormal (f : LenFmt) (x : FloatBits) (e m : Nat) : Prop where
  exp_le : e ≤ 32
  le_sig : 2 ^ fracBits f ≤ m
  sig_lt : m < 2 ^ (fracBits f + 1)
  word_eq : x = floatWord (fracBits f) (expField f e) (m - 2 ^ fracBits f)

namespace IsNormal

variable {f : LenFmt} {x : FloatBits} {e m : Nat}

theorem toNat_eq (h : IsNormal f x e m) : x.toNat = expField f e * 2 ^ fracBits f + (m - 2 ^ fracBits f) := by
  obtain ⟨he, hlo, hhi, rfl⟩ := h
  rw [floatWord, BitVec.toNat_ofNat]
  refine Nat.mod_eq_of_lt ?_
  cases f <;> simp only [fracBits, expField_binary64, expField_binary32] at * <;> omega

/-- The fraction does not reach into the exponent field. -/
theorem frac_lt (h : IsNormal f x e m) : m - 2 ^ fracBits f < 2 ^ fracBits f := by
  have hlt := h.sig_lt
  rw [pow_succ] at hlt
  omega

/-- The sign and the exponent field. -/
theorem toNat_div (h : IsNormal f x e m) : x.toNat / 2 ^ fracBits f = expField f e := by
  rw [h.toNat_eq, mul_comm, Nat.mul_add_div (Nat.two_pow_pos _), Nat.div_eq_of_lt h.frac_lt, Nat.add_zero]

/-- The fraction field. -/
theorem toNat_mod (h : IsNormal f x e m) : x.toNat % 2 ^ fracBits f = m - 2 ^ fracBits f := by
  rw [h.toNat_eq, mul_comm, Nat.mul_add_mod, Nat.mod_eq_of_lt h.frac_lt]

/-- R144's number of such a word. -/
theorem floatValue_eq (h : IsNormal f x e m) :
    floatValue f x = (2 : ℚ) ^ ((expField f e : ℤ) - expBias f) *
      (1 + ((m - 2 ^ fracBits f : ℕ) : ℚ) / 2 ^ fracBits f) := by
  have he := h.exp_le
  have hexp := h.toNat_div
  have hfrac := h.toNat_mod
  have hx : x ≠ 0#64 := by
    rintro rfl
    cases f <;> simp at hexp <;> omega
  cases f <;> simp only [fracBits, expField_binary64, expField_binary32, expBias] at *
  all_goals
    rw [floatValue, if_neg hx]
    rw [hexp, hfrac, Nat.div_eq_of_lt (by omega), Nat.mod_eq_of_lt (by omega), pow_zero, one_mul]
    rfl

/-- The exponent field less the bias is the highest bit's place less the 16 of the divisor, R146. -/
theorem two_zpow_expField (f : LenFmt) (e : Nat) : (2 : ℚ) ^ ((expField f e : ℤ) - expBias f) = 2 ^ e / 65536 := by
  have h16 : (expField f e : ℤ) - expBias f = e - (16 : ℕ) := by
    cases f <;> simp [expBias] <;> omega
  rw [h16, zpow_sub₀ two_ne_zero, zpow_natCast, zpow_natCast]
  norm_num

/-- The word stands for `k / 65536` if its significand at its place is `k`. -/
theorem floatValue_eq_div (h : IsNormal f x e m) {k : Nat} (hk : m * 2 ^ e = k * 2 ^ fracBits f) :
    floatValue f x = (k : ℚ) / 65536 := by
  have hk' : (m : ℚ) * 2 ^ e = k * 2 ^ fracBits f := by exact_mod_cast hk
  rw [h.floatValue_eq, two_zpow_expField, Nat.cast_sub h.le_sig]
  push_cast
  field_simp
  linarith

end IsNormal

/-! ### The scaling -/

theorem toNat_ne_zero {v : Word32} (h : v ≠ 0#32) : v.toNat ≠ 0 :=
  fun h0 => h (BitVec.eq_of_toNat_eq h0)

/-- A number of at most `k + 1` bits has its highest bit at `k` or below. -/
theorem log2_le_of_lt {n k : Nat} (h : n < 2 ^ (k + 1)) : n.log2 ≤ k := by
  obtain rfl | h0 := eq_or_ne n 0
  · simp
  · exact Nat.lt_succ_iff.1 ((Nat.log2_lt h0).2 h)

theorem log2_le_31 (v : Word32) : v.toNat.log2 ≤ 31 := log2_le_of_lt v.isLt

theorem log2_le_52 (v : Word32) : v.toNat.log2 ≤ 52 := (log2_le_31 v).trans (by decide)

/-- A number with at most `p + 1` bits, moved up until its highest bit is bit `p`. -/
theorem shifted_bounds {n p : Nat} (h0 : n ≠ 0) (h : n.log2 ≤ p) :
    2 ^ p ≤ n * 2 ^ (p - n.log2) ∧ n * 2 ^ (p - n.log2) < 2 ^ (p + 1) := by
  have hp : 2 ^ p = 2 ^ n.log2 * 2 ^ (p - n.log2) := by rw [← pow_add]; congr 1; omega
  rw [pow_succ, hp, mul_right_comm, ← pow_succ]
  exact ⟨Nat.mul_le_mul_right _ (Nat.log2_self_le h0),
    Nat.mul_lt_mul_of_pos_right Nat.lt_log2_self (Nat.two_pow_pos _)⟩

/-- Its fraction is what stands below the highest bit, moved up likewise. -/
theorem shifted_frac {n p : Nat} (h : n.log2 ≤ p) :
    (n - 2 ^ n.log2) * 2 ^ (p - n.log2) = n * 2 ^ (p - n.log2) - 2 ^ p := by
  rw [Nat.sub_mul, ← pow_add, Nat.add_sub_cancel' h]

@[simp] theorem q16ToFloat_zero (f : LenFmt) : q16ToFloat f 0#32 = 0#64 := by simp [q16ToFloat]

section Normal

variable {v : Word32} (h0 : v.toNat ≠ 0)
include h0

/-- R145, BINARY64. -/
theorem isNormal_binary64 : IsNormal .binary64 (q16ToFloat .binary64 v) v.toNat.log2
    (v.toNat * 2 ^ (52 - v.toNat.log2)) where
  exp_le := (log2_le_31 v).trans (by decide)
  le_sig := (shifted_bounds h0 (log2_le_52 v)).1
  sig_lt := (shifted_bounds h0 (log2_le_52 v)).2
  word_eq := by
    rw [fracBits, ← shifted_frac (log2_le_52 v)]
    exact if_neg h0

/-- R145, BINARY32, up to 24 significant bits. -/
theorem isNormal_binary32_exact (he : v.toNat.log2 ≤ 23) : IsNormal .binary32 (q16ToFloat .binary32 v) v.toNat.log2
    (v.toNat * 2 ^ (23 - v.toNat.log2)) where
  exp_le := he.trans (by decide)
  le_sig := (shifted_bounds h0 he).1
  sig_lt := (shifted_bounds h0 he).2
  word_eq := by
    rw [fracBits, ← shifted_frac he]
    exact (if_neg h0).trans (if_pos he)

/-- R145, BINARY32, where the rounded significand keeps its 24 bits. -/
theorem isNormal_binary32_rounded (he : 23 < v.toNat.log2) (hm : roundedSignificand v.toNat v.toNat.log2 ≠ 2 ^ 24) :
    IsNormal .binary32 (q16ToFloat .binary32 v) v.toNat.log2 (roundedSignificand v.toNat v.toNat.log2) where
  exp_le := (log2_le_31 v).trans (by decide)
  le_sig := two_pow_23_le_roundedSignificand he
  sig_lt := (roundedSignificand_le_two_pow_24 he).lt_of_ne hm
  word_eq := (if_neg h0).trans ((if_neg (not_le.2 he)).trans (if_neg hm))

/-- R145, BINARY32, where rounding carries into the next exponent. -/
theorem isNormal_binary32_carry (he : 23 < v.toNat.log2) (hm : roundedSignificand v.toNat v.toNat.log2 = 2 ^ 24) :
    IsNormal .binary32 (q16ToFloat .binary32 v) (v.toNat.log2 + 1) (2 ^ 23) where
  exp_le := Nat.succ_le_succ (log2_le_31 v)
  le_sig := le_rfl
  sig_lt := by decide
  word_eq := (if_neg h0).trans ((if_neg (not_le.2 he)).trans (if_pos hm))

end Normal

/-- The integer whose 65536th the scaling's word stands for, R145. -/
def scaledNat : LenFmt → Nat → Nat
  | .binary64, n => n
  | .binary32, n => roundTo24Bits n

@[simp] theorem scaledNat_binary64 (n : Nat) : scaledNat .binary64 n = n := rfl
@[simp] theorem scaledNat_binary32 (n : Nat) : scaledNat .binary32 n = roundTo24Bits n := rfl

/-- Every word of the scaling but that of 0 is positive and normal, and its significand at its place is `scaledNat`. -/
theorem exists_isNormal (f : LenFmt) {v : Word32} (h0 : v.toNat ≠ 0) :
    ∃ e m, IsNormal f (q16ToFloat f v) e m ∧ m * 2 ^ e = scaledNat f v.toNat * 2 ^ fracBits f := by
  cases f with
  | binary64 =>
    refine ⟨_, _, isNormal_binary64 h0, ?_⟩
    rw [mul_assoc, pow_sub_mul_pow 2 (log2_le_52 v)]
    rfl
  | binary32 =>
    rcases le_or_gt v.toNat.log2 23 with he | he
    · refine ⟨_, _, isNormal_binary32_exact h0 he, ?_⟩
      rw [mul_assoc, pow_sub_mul_pow 2 he, scaledNat_binary32, roundTo24Bits_eq_self he]
      rfl
    · by_cases hm : roundedSignificand v.toNat v.toNat.log2 = 2 ^ 24
      · refine ⟨_, _, isNormal_binary32_carry h0 he hm, ?_⟩
        rw [scaledNat_binary32, roundTo24Bits, hm, pow_succ _ v.toNat.log2, two_pow_log2_split he, fracBits]
        ring
      · refine ⟨_, _, isNormal_binary32_rounded h0 he hm, ?_⟩
        rw [scaledNat_binary32, roundTo24Bits, two_pow_log2_split he, fracBits]
        ring

/-- Both formats are exact up to 24 bits. -/
theorem scaledNat_eq_self (f : LenFmt) {n : Nat} (h : n < 2 ^ 24) : scaledNat f n = n := by
  cases f with
  | binary64 => rfl
  | binary32 => exact roundTo24Bits_eq_self (log2_le_of_lt h)

/-- The number the scaling gives, in both formats. -/
theorem floatValue_q16ToFloat (f : LenFmt) (v : Word32) :
    floatValue f (q16ToFloat f v) = (scaledNat f v.toNat : ℚ) / 65536 := by
  by_cases hv : v = 0#32
  · subst hv
    simp [floatValue, scaledNat_eq_self]
  · obtain ⟨e, m, hnormal, hk⟩ := exists_isNormal f (toNat_ne_zero hv)
    exact hnormal.floatValue_eq_div hk

theorem scaledNat_mono (f : LenFmt) {n n' : Nat} (h : n ≤ n') : scaledNat f n ≤ scaledNat f n' := by
  cases f with
  | binary64 => exact h
  | binary32 => exact roundTo24Bits_mono h

theorem scaledNat_double (f : LenFmt) (n : Nat) : scaledNat f (2 * n) = 2 * scaledNat f n := by
  cases f with
  | binary64 => rfl
  | binary32 => exact roundTo24Bits_double n

/-- R145: BINARY64 is exact. -/
theorem floatValue_binary64 (v : Word32) :
    floatValue .binary64 (q16ToFloat .binary64 v) = (v.toNat : ℚ) / 65536 :=
  floatValue_q16ToFloat .binary64 v

/-- Settles O55: the number, and the fields of the normal word. -/
theorem binary64IsExact : Obligations.Binary64IsExact := by
  refine fun v => ⟨floatValue_binary64 v, fun hv => ?_⟩
  have hnormal := isNormal_binary64 (toNat_ne_zero hv)
  refine ⟨hnormal.toNat_div, hnormal.toNat_mod.trans ?_⟩
  exact (shifted_frac (log2_le_52 v)).symm

/-- Settles O56: up to 24 bits the rounding is the identity, and above it is that of the significand. -/
theorem binary32RoundsToNearestEven : Obligations.Binary32RoundsToNearestEven := by
  refine fun v => ⟨fun h => ?exact, fun h => ⟨_, floatValue_q16ToFloat .binary32 v, ?nearest⟩⟩
  case exact => rw [floatValue_q16ToFloat, scaledNat_eq_self _ h]
  case nearest => exact roundedSignificand_nearest _ ((Nat.le_log2 (by omega)).2 h)

/-- Settles O57: a normal word of the scaling has a highest bit of at most 31, or 32 where BINARY32 carries. -/
theorem scalingGivesZeroOrNormal : Obligations.ScalingGivesZeroOrNormal := by
  intro v hv
  have h0 := toNat_ne_zero hv
  refine ⟨?binary64, ?binary32⟩
  case binary64 =>
    have hexp := (isNormal_binary64 h0).toNat_div
    have he := log2_le_31 v
    simp only [fracBits, expField_binary64] at hexp
    omega
  case binary32 =>
    obtain ⟨e, m, hnormal, -⟩ := exists_isNormal .binary32 h0
    have hexp := hnormal.toNat_div
    have he := hnormal.exp_le
    simp only [fracBits, expField_binary32] at hexp
    omega

/-- R146: the scaling keeps the order. -/
theorem floatValue_q16ToFloat_mono (f : LenFmt) {v w : Word32} (h : v.toNat ≤ w.toNat) :
    floatValue f (q16ToFloat f v) ≤ floatValue f (q16ToFloat f w) := by
  rw [floatValue_q16ToFloat, floatValue_q16ToFloat]
  gcongr
  exact scaledNat_mono f h

/-- R146: doubling the integer doubles the number. -/
theorem floatValue_q16ToFloat_double (f : LenFmt) {v : Word32} (h : v.toNat < 2 ^ 31) :
    floatValue f (q16ToFloat f (2 * v)) = 2 * floatValue f (q16ToFloat f v) := by
  have hv : (2 * v).toNat = 2 * v.toNat := by
    rw [BitVec.toNat_mul]
    exact Nat.mod_eq_of_lt (by simp; omega)
  rw [floatValue_q16ToFloat, floatValue_q16ToFloat, hv, scaledNat_double]
  push_cast
  ring

/-- R146: from the number of a BINARY64 word the integer is recovered. -/
theorem floatValue_binary64_mul (v : Word32) : floatValue .binary64 (q16ToFloat .binary64 v) * 65536 = v.toNat := by
  rw [floatValue_binary64]
  ring

theorem q16ToFloat_binary64_inj {v w : Word32} (h : q16ToFloat .binary64 v = q16ToFloat .binary64 w) : v = w := by
  have hnum := floatValue_binary64_mul v
  rw [h, floatValue_binary64_mul] at hnum
  exact BitVec.eq_of_toNat_eq (by exact_mod_cast hnum.symm)

/-- R146: integer part and fraction of a BINARY64 word's number. -/
theorem floatValue_binary64_parts (v : Word32) : floatValue .binary64 (q16ToFloat .binary64 v) =
    ((v.toNat / 65536 : ℕ) : ℚ) + ((v.toNat % 65536 : ℕ) : ℚ) / 65536 := by
  have hdiv : ((65536 * (v.toNat / 65536) + v.toNat % 65536 : ℕ) : ℚ) = v.toNat := congrArg _ (Nat.div_add_mod ..)
  rw [floatValue_binary64, ← hdiv, Nat.cast_add, Nat.cast_mul, add_div]
  norm_num

/-- Settles O58. -/
theorem scalingLaws : Obligations.ScalingLaws := by
  refine ⟨fun f _ _ => floatValue_q16ToFloat_mono f, fun v w h => ?_, fun _ _ => q16ToFloat_binary64_inj,
    fun f _ => floatValue_q16ToFloat_double f, floatValue_binary64_mul, floatValue_binary64_parts⟩
  rw [floatValue_binary64, floatValue_binary64]
  gcongr

/-! ### SCALE and STAMP -/

/-- Settles O14: the word's number is that of the scaling, and the corner cases follow from it. -/
theorem scaleDividesBy65536 : Obligations.ScaleDividesBy65536 := by
  refine ⟨by decide, fun s => ⟨_, rfl, rfl, fun hf => ?_⟩, fun f => ⟨q16ToFloat_zero f, ?_, ?_⟩, ?_, ?_⟩
  · rw [hf]
    exact floatValue_binary64 s.value
  · rw [floatValue_q16ToFloat, scaledNat_eq_self f (by decide)]
    norm_num
  · rw [floatValue_q16ToFloat, scaledNat_eq_self f (by decide)]
    norm_num
  · rw [floatValue_binary64]
    norm_num
  · rw [floatValue_q16ToFloat, show scaledNat .binary32 (0xFFFFFFFF#32).toNat = 2 ^ 32 by decide]
    norm_num

/-- Settles O15: the sample of the clock is the tick's own. -/
theorem stampWritesTheReading : Obligations.StampWritesTheReading :=
  ⟨by decide, fun _ => rfl⟩

end Sys2Proof.Machine
end

section
/-! The statement of `43_output_sink.md`: the one record that PUBLISH hands to the sink. -/

namespace Sys2Proof.Machine

/-- Settles O16: the word is PUBLISH's own, and PUBLISH hands over what READING does for the record held. -/
theorem publishCopiesTheReading : Obligations.PublishCopiesTheReading := by
  obtain ⟨-, reading_handsOver, publish_eq_reading⟩ := readingRowIsTheRecordPublished
  exact ⟨decodeOfEncode .binary64 .publish rfl, fun s => (publish_eq_reading s).trans (reading_handsOver _ _ s)⟩

end Sys2Proof.Machine
end

section
/-! The statements of `60_exceptions.md`: HALT and the closed channel, the priority of a tick's conditions, that every input
has a next state, what FATAL keeps, and that FATAL and HALTED are left by reset alone. -/

namespace Sys2Proof.Machine

variable {s t : State}

/-! ### HALT, the closed channel, and a tick outside RUN -/

/-- Settles O21: a closed channel selects SKIP_CLOSED, which pulses and ends the tick. -/
theorem skipClosedPulsesAndAdvances : Obligations.SkipClosedPulsesAndAdvances := by
  intro s hm hh ho
  exact ⟨nextCnt s.cnt, nextCnt_val_wrap s.cnt, exec_skipClosed_eq hm (tickInstr_skipClosed hh ho)⟩

/-- Settles O26: `halt` alone selects HALT, whatever the other conditions. -/
theorem haltOnlyEntersHalted : Obligations.HaltOnlyEntersHalted :=
  fun _ hm hh => exec_halt_eq hm (tickInstr_halt hh)

/-- Settles O38: the step takes the tick off the inputs, and the tick is ignored. -/
theorem tickOutsideRunIsIgnored : Obligations.TickOutsideRunIsIgnored := by
  intro s b rest hseq hin hm
  rw [step_input hseq hin]
  exact takeTick_ignored (s := s.afterInput rest) b hm

/-! ### The priority of a tick's conditions -/

/-- Where a marker stands at an examined offset the search reports it, R123. -/
theorem Selected.found_of_firstMarker {bs : List Byte} {i : Nat} {f : Bool} (h : Selected bs i f)
    (hfirst : ∃ j, FirstMarker bs j) : f = true := by
  obtain ⟨j, hj⟩ := hfirst
  exact (h.unique (.inl ⟨rfl, hj⟩)).2

/-- Where none stands the search reports none, R124. -/
theorem Selected.notFound_of_noMarker {bs : List Byte} {i : Nat} {f : Bool} (h : Selected bs i f)
    (hno : NoMarker bs) : f = false := by
  have hle := h.le
  have hlast : bs.length - 8 + 8 = bs.length := by omega
  exact (h.unique (.inr ⟨rfl, hno, hlast⟩)).2

/-- Settles O40: of the outcomes of a tick each runs under its own conditions, and reports itself. -/
theorem tickPriorityIsFixed : Obligations.TickPriorityIsFixed := by
  intro s b rest hwf hseq hin hm
  rcases tick_cases hseq hin hm with ⟨hh, hx⟩ | ⟨hh, ho, hx⟩ | ⟨hh, ho, hc, hx⟩ | ⟨hh, ho, hc, ha, hx⟩ |
    ⟨hh, ho, hc, ha, hl, hx⟩ | ⟨hh, ho, hc, ha, hl, i, f, hsel, hx⟩ <;> refine ⟨_, hx, ?_⟩
  · simp [hh]
  · simp [hh, ho]
  · simp [hh, ho, hc]
  · simp [hh, ho, hc, ha]
  · simp [hh, ho, hc, ha, hl]
  · rw [buffer_tickState hwf] at hsel
    have hfallback : NoMarker b.answer → f = false := hsel.notFound_of_noMarker
    have hfound : (∃ j, FirstMarker b.answer j) → f = true := hsel.found_of_firstMarker
    simp +contextual [hh, ho, hc, ha, hl, hfallback, hfound]

/-! ### Every input has a next state -/

/-- What drives the machine is the same in both states: the word in `seq`, the parameters, and the inputs to come. -/
structure SameDrivers (s t : State) : Prop where
  seq_eq : t.seq = s.seq := by simp
  cfg_eq : t.cfg = s.cfg := by simp
  inputs_eq : t.env.inputs = s.env.inputs := by simp

theorem exec_tickInstr_sameDrivers (hm : s.mode = .run) (h : exec (tickInstr s) s = .next t) : SameDrivers s t := by
  rcases exec_tickInstr hm with ⟨-, -, hx⟩ | ⟨-, -, -, hx⟩ | ⟨-, -, -, -, hx⟩ | ⟨-, -, -, -, -, hx⟩ |
    ⟨-, -, -, -, -, -, hx⟩ | ⟨-, -, -, -, -, i, f, -, -, hx⟩ <;> cases hx.symm.trans h
  all_goals exact {}

theorem exec_bootEventOf_sameDrivers {o c : Bool} (h : exec (bootEventOf o c) s = .next t) : SameDrivers s t := by
  obtain ⟨l, m, rfl⟩ := exec_bootEvent_next (bootEventOf_mem o c) h
  exact {}

/-- A reset in a tick keeps the parameters and the inputs to come, R201, and leaves no word in `seq`. -/
theorem cutTick_sameDrivers {done : Nat} (hseq : s.seq = none) (hout : s.out = TickOut.none)
    (h : cutTick done s = .next t) : SameDrivers s t := by
  obtain ⟨tx, rd, pub, closed, hx, -⟩ := cutTick_next hout done
  cases hx.symm.trans h
  exact ⟨hseq.symm, rfl, rfl⟩

/-- A step that runs no word in `seq` takes one input and leaves the rest of what drives the machine. -/
theorem step_sameDrivers (hseq : s.seq = none) (h : step s = .next t) :
    SameDrivers (s.afterInput s.env.inputs.tail) t := by
  rcases step_next_cases h with ⟨w, i, hw, -⟩ |
    ⟨-, rfl | rfl | ⟨b, done, -, hx⟩ | ⟨bs, rfl⟩ | ⟨b, -, hx⟩ | ⟨b, hm, hx⟩⟩
  · cases hseq.symm.trans hw
  · exact {}
  · exact { seq_eq := hseq.symm }
  · exact { cutTick_sameDrivers (s := s.tickState b _) hseq rfl hx with }
  · exact {}
  · exact { exec_bootEventOf_sameDrivers hx with }
  · exact { exec_tickInstr_sameDrivers (s := s.tickState b _) hm hx with }

/-- No input is a fault and none is refused: not in the modes that act on it, nor in those that let it go by. -/
theorem takeInput_next (hout : s.out = TickOut.none) (e : Input) : ∃ t, takeInput e s = .next t := by
  cases e with
  | rst => exact ⟨_, rfl⟩
  | arrive bs => exact ⟨_, rfl⟩
  | boot b =>
    by_cases hm : s.mode = .boot
    · exact ⟨_, takeBoot_boot b hm⟩
    · exact ⟨_, takeBoot_ignored b hm⟩
  | tick b =>
    by_cases hm : s.mode = .run
    · simp only [takeInput, takeTick_run b hm]
      exact exec_tickInstr_next (s := { s with tin := b }) hm
    · exact ⟨_, takeTick_ignored b hm⟩
  | rstInTick b done =>
    by_cases hm : s.mode = .run
    · simp only [takeInput, takeRstInTick_run b done hm]
      obtain ⟨tx, rd, pub, closed, hx, -⟩ := cutTick_next (s := { s with tin := b }) hout done
      exact ⟨_, hx⟩
    · exact ⟨_, takeRstInTick_ignored b done hm⟩

theorem step_next_of_seq_none (hseq : s.seq = none) : ∃ t, step s = .next t := by
  cases hin : s.env.inputs with
  | nil => exact ⟨_, step_noInput hseq hin⟩
  | cons e rest =>
    rw [step_input hseq hin]
    exact takeInput_next (s := s.afterInput rest) rfl e

/-- Settles O37: a step that runs no word in `seq` answers a next state, which has one input less. -/
theorem everyInputHasANextState : Obligations.EveryInputHasANextState := by
  intro s hseq
  obtain ⟨t, ht⟩ := step_next_of_seq_none hseq
  obtain ⟨hseq', hcfg, hinputs⟩ := step_sameDrivers hseq ht
  exact ⟨t, ht, hseq'.trans hseq, hcfg, hinputs⟩

/-! ### What BOOT and FATAL keep -/

namespace State.FreshUntilRun

/-- The block after a reset is fresh. -/
theorem applyReset (s : State) : (applyReset s).FreshUntilRun where
  seq_none := rfl
  fresh := fun _ => ⟨rfl, rfl, rfl, rfl⟩

/-- An event that changes the mode alone, in BOOT, leaves the reset values to whatever mode follows, R183. -/
theorem raiseEvent (h : s.FreshUntilRun) (hm : s.mode = .boot) (l : Label) (m : Mode) :
    (raiseEvent l m s).FreshUntilRun where
  seq_none := h.seq_none
  fresh := fun _ => h.fresh (.inl hm)

end State.FreshUntilRun

/-- A tick in RUN ends in RUN or in HALTED, R181. -/
theorem exec_tickInstr_mode (hm : s.mode = .run) (h : exec (tickInstr s) s = .next t) :
    t.mode = .run ∨ t.mode = .halted := by
  rcases exec_tickInstr hm with ⟨-, -, hx⟩ | ⟨-, -, -, hx⟩ | ⟨-, -, -, -, hx⟩ | ⟨-, -, -, -, -, hx⟩ |
    ⟨-, -, -, -, -, -, hx⟩ | ⟨-, -, -, -, -, i, f, -, -, hx⟩ <;> cases hx.symm.trans h
  · exact .inr rfl
  all_goals exact .inl (by simpa using hm)

/-- Settles O47, by what a step can have done: it reset the block, it ran a boot event, it ran a tick outcome, which does not
end in BOOT or FATAL, or it touched none of the elements. -/
theorem fatalKeepsTheResetValues : Obligations.FatalKeepsTheResetValues := by
  refine ⟨.applyReset State.reset, fun s t hs h => ?_⟩
  rcases step_next_cases h with ⟨w, i, hw, -⟩ |
    ⟨-, rfl | rfl | ⟨b, done, -, hx⟩ | ⟨bs, rfl⟩ | ⟨b, hm, hx⟩ | ⟨b, hm, hx⟩⟩
  · cases hs.seq_none.symm.trans hw
  · exact { hs with }
  · exact .applyReset _
  · obtain ⟨u, rfl⟩ := cutTick_next_eq hx
    exact { State.FreshUntilRun.applyReset u with }
  · exact { hs with }
  · obtain ⟨l, m, rfl⟩ := exec_bootEvent_next (bootEventOf_mem ..) hx
    exact .raiseEvent (s := s.bootState b _) { hs with } hm l m
  · have hseq : t.seq = none := (step_sameDrivers hs.seq_none h).seq_eq.trans hs.seq_none
    have hmode := exec_tickInstr_mode (s := s.tickState b _) hm hx
    exact ⟨hseq, fun hbf => by rcases hmode with h' | h' <;> simp [h'] at hbf⟩

/-! ### FATAL and HALTED -/

/-- The state with only what is around the block changed: the outputs reported, the inputs to come, the channel's queue. -/
def State.withAround (s : State) (o : TickOut) (inputs : List Input) (rxq : List Byte) : State :=
  { s with out := o, env := { s.env with inputs := inputs, rxq := rxq } }

/-- Outside BOOT and RUN, of the inputs but reset only bytes that arrive do anything: they join the channel's queue. -/
theorem takeInput_terminal (hb : s.mode ≠ .boot) (hr : s.mode ≠ .run) {e : Input} (he : e.isRst = false) :
    ∃ q, takeInput e s = .next (s.withAround s.out s.env.inputs q) := by
  cases e with
  | rst => cases he
  | rstInTick b done => cases he
  | boot b => exact ⟨_, takeBoot_ignored b hb⟩
  | tick b => exact ⟨_, takeTick_ignored b hr⟩
  | arrive bs => exact ⟨_, rfl⟩

/-- Nor does a step without a reset change the block there, R173 and R181. -/
theorem step_terminal (hseq : s.seq = none) (hb : s.mode ≠ .boot) (hr : s.mode ≠ .run)
    (hin : ∀ e ∈ s.env.inputs, e.isRst = false) :
    ∃ q, step s = .next (s.withAround TickOut.none s.env.inputs.tail q) := by
  cases hi : s.env.inputs with
  | nil => exact ⟨s.env.rxq, step_noInput hseq hi⟩
  | cons e rest =>
    rw [step_input hseq hi]
    exact takeInput_terminal (s := s.afterInput rest) hb hr (hin e (by simp [hi]))

/-- Nor does a run of any length. -/
theorem run_terminal (n : Nat) (hseq : s.seq = none) (hb : s.mode ≠ .boot) (hr : s.mode ≠ .run)
    (hin : ∀ e ∈ s.env.inputs, e.isRst = false) :
    ∃ o is q, Host.Core.run Sys2Proof.core n s = .next (s.withAround o is q) := by
  induction n generalizing s with
  | zero => exact ⟨s.out, s.env.inputs, s.env.rxq, rfl⟩
  | succ n ih =>
    obtain ⟨q, hstep⟩ := step_terminal hseq hb hr hin
    rw [run_succ hstep]
    exact ih (s := s.withAround TickOut.none s.env.inputs.tail q) hseq hb hr
      fun e he => hin e (List.mem_of_mem_tail he)

/-- Settles O51: a run without a reset changes only what is around the block. -/
theorem terminalModesHoldWithoutReset : Obligations.TerminalModesHoldWithoutReset := by
  intro n s hseq hm hin
  have hb : s.mode ≠ .boot := by rcases hm with h | h <;> simp [h]
  have hr : s.mode ≠ .run := by rcases hm with h | h <;> simp [h]
  obtain ⟨o, is, q, hrun⟩ := run_terminal n hseq hb hr hin
  exact ⟨_, hrun, rfl, rfl, rfl, rfl, rfl, rfl, rfl, rfl, rfl, rfl, rfl⟩

end Sys2Proof.Machine
end

section
/-! The statements of `70_reset_and_hazards.md`: the boot sequence as a step, reset between ticks and in one, and that
under `REQ_GATE = AVAIL` nothing is sent or published while no bytes are reported. -/

namespace Sys2Proof.Machine

variable {s t : State}

/-! ### The boot sequence -/

/-- Settles O30: in BOOT the two checks decide the event in their order, and elsewhere the answers go by. -/
theorem bootStepFollowsTheTwoChecks : Obligations.BootStepFollowsTheTwoChecks := by
  intro s b rest hseq hin
  rw [step_input hseq hin]
  refine ⟨fun hm => ?_, takeBoot_ignored (s := s.afterInput rest) b⟩
  refine (takeBoot_boot (s := s.afterInput rest) b hm).trans (congrArg _ ?_)
  obtain ⟨openOk, chOpen⟩ := b
  cases openOk
  · rfl
  · cases chOpen <;> rfl

/-! ### Reset between ticks -/

/-- Settles O31: `rst` is taken in every mode, and the values of the table of R42 are those `applyReset` writes. -/
theorem resetStepRestoresTheBlock : Obligations.ResetStepRestoresTheBlock := by
  intro s rest hseq hin
  exact ⟨applyReset (s.afterInput rest), step_input hseq hin, rfl, rfl, rfl, rfl, rfl, rfl, rfl, rfl, rfl, rfl⟩

/-! ### Reset in a tick -/

/-- A reset before the tick has issued anything leaves no outputs, R42. -/
theorem resetInTick_tickState (s : State) (b : TickIn) (rest : List Input) :
    resetInTick (s.tickState b rest) = s.afterCut rest TickOut.none 0 := by
  simp [resetInTick, applyReset, State.afterCut, TickOut.none]

/-- Outside RUN, where the tick is ignored, the reset is one between ticks (log entry 23). -/
theorem applyReset_afterInput (s : State) (rest : List Input) :
    applyReset (s.afterInput rest) = s.afterCut rest TickOut.none 0 := resetInTick_tickState s s.tin rest

/-- A reset after the tick has issued some of its events leaves them outside the block, R201. -/
theorem resetInTick_issued (s : State) (b : TickIn) (rest : List Input) (tx : Option (List Byte)) (rd : Option Nat)
    (pub : Option Reading) (closed : Bool) :
    resetInTick (issued (s.tickState b rest) tx rd pub closed) =
      s.afterCut rest ⟨none, tx, rd, pub, closed⟩ (if rd.isSome then b.answer.length else 0) := rfl

/-- In an attempt of `k` operations the request is the first, the read the second, and the record the last, R106. -/
theorem resetInTick_attemptIssued (s : State) (b : TickIn) (rest : List Input) (k n : Nat) (r : Reading) :
    resetInTick (attemptIssued k r n (s.tickState b rest)) =
      s.afterCut rest
        ⟨none, if 1 ≤ n then some Config.reqCmd else none, if 2 ≤ n then some (min b.rxAvail 1024) else none,
          if k ≤ n then some r else none, false⟩
        (if 2 ≤ n then b.answer.length else 0) := by
  rw [attemptIssued, resetInTick_issued]
  by_cases h : 2 ≤ n <;> simp [h, readSize]

/-- Settles O32: outside RUN the tick is ignored, and in RUN each clause is one of the cases of a tick cut short. -/
theorem resetInATickDropsItsRemainingEvents : Obligations.ResetInATickDropsItsRemainingEvents := by
  intro s b n rest hwf hseq hin
  by_cases hm : s.mode = .run
  · rcases rstInTick_cases hseq hin hm with ⟨hnone, hx⟩ | ⟨hh, ho, hx⟩ | ⟨hh, ho, hc, ha, hx⟩ |
      ⟨hh, ho, hc, ha, hl, hx⟩ | ⟨hh, ho, hc, ha, hl, i, f, hsel, hx⟩
    · rw [hx, resetInTick_tickState]
      rcases hnone with hh | ⟨ho, hc⟩
      · simp [hm, hh]
      · simp [hm, ho, hc]
    · rw [hx, resetInTick_issued]
      simp [hm, hh, ho]
    · rw [hx, resetInTick_issued]
      simp [hm, hh, ho, hc, ha]
    · rw [hx, resetInTick_attemptIssued]
      simp +contextual [hm, hh, ho, hc, ha, hl, Nat.not_le.2 hl]
    · rw [buffer_tickState hwf] at hsel hx
      rw [hx, resetInTick_attemptIssued]
      refine ⟨by simp [hm], by simp [hh], by simp [ho], by simp [hc], by simp [ha], ?_⟩
      rintro k r - - - - - (⟨hshort, -⟩ | ⟨-, rfl, i', f', hsel', rfl⟩)
      · omega
      · rw [(hsel.unique hsel').1]
  · have hx : step s = .next (s.afterCut rest TickOut.none 0) := by
      rw [step_input hseq hin, ← applyReset_afterInput]
      exact takeRstInTick_ignored (s := s.afterInput rest) b n hm
    simp [hm, hx]

/-! ### No request under AVAIL -/

/-- From `s` to `t` nothing was sent and nothing published. -/
structure IssuesNothing (s t : State) : Prop where
  sent_eq : t.env.sent = s.env.sent := by simp
  sink_eq : t.env.sink = s.env.sink := by simp

theorem IssuesNothing.trans {u : State} (h : IssuesNothing s t) (h' : IssuesNothing t u) : IssuesNothing s u :=
  ⟨h'.sent_eq.trans h.sent_eq, h'.sink_eq.trans h.sink_eq⟩

/-- Under AVAIL a due tick with no bytes available writes no request, R104. -/
theorem afterNoavail_issuesNothing (hg : s.cfg.reqGate = .avail) : IssuesNothing s (afterNoavail s) where
  sent_eq := by rw [afterNoavail, noavailRequest_avail hg, endTick_env]

/-- Under AVAIL a tick in RUN with no bytes available is none of the outcomes that send or publish, R104 and R106. -/
theorem exec_tickInstr_issuesNothing (hm : s.mode = .run) (hg : s.cfg.reqGate = .avail) (ha : s.tin.rxAvail = 0)
    (h : exec (tickInstr s) s = .next t) : IssuesNothing s t := by
  rcases exec_tickInstr hm with ⟨-, -, hx⟩ | ⟨-, -, -, hx⟩ | ⟨-, -, -, -, hx⟩ | ⟨-, -, -, -, -, hx⟩ |
    ⟨-, -, -, ha', -⟩ | ⟨-, -, -, ha', -⟩
  · cases hx.symm.trans h
    exact {}
  · cases hx.symm.trans h
    exact {}
  · cases hx.symm.trans h
    exact {}
  · cases hx.symm.trans h
    exact afterNoavail_issuesNothing hg
  · exact absurd ha ha'
  · exact absurd ha ha'

/-- Nor has such a tick sent or published anything when a reset cuts it short. -/
theorem cutTick_issuesNothing {done : Nat} (hout : s.out = TickOut.none) (hg : s.cfg.reqGate = .avail)
    (ha : s.tin.rxAvail = 0) (h : cutTick done s = .next t) : IssuesNothing s t := by
  obtain ⟨tx, rd, pub, closed, hx, -, hquiet⟩ := cutTick_next hout done
  obtain ⟨-, rfl, htx⟩ := hquiet ha
  cases hx.symm.trans h
  exact ⟨by simp [issued, htx hg], by simp [issued]⟩

/-- Under AVAIL an input that reports no bytes makes the block send and publish nothing, whatever the mode. -/
theorem takeInput_issuesNothing {e : Input} (hout : s.out = TickOut.none) (hg : s.cfg.reqGate = .avail) (he : e.quiet)
    (h : takeInput e s = .next t) : IssuesNothing s t := by
  cases e with
  | rst => cases h; exact {}
  | arrive bs => cases h; exact {}
  | boot b =>
    by_cases hm : s.mode = .boot
    · cases (takeBoot_boot b hm).symm.trans h
      exact ⟨by split_ifs <;> rfl, by split_ifs <;> rfl⟩
    · cases (takeBoot_ignored b hm).symm.trans h
      exact {}
  | tick b =>
    by_cases hm : s.mode = .run
    · exact { exec_tickInstr_issuesNothing (s := { s with tin := b }) hm hg he
        ((takeTick_run b hm).symm.trans h) with }
    · cases (takeTick_ignored b hm).symm.trans h
      exact {}
  | rstInTick b done =>
    by_cases hm : s.mode = .run
    · exact { cutTick_issuesNothing (s := { s with tin := b }) hout hg he
        ((takeRstInTick_run b done hm).symm.trans h) with }
    · cases (takeRstInTick_ignored b done hm).symm.trans h
      exact {}

/-- So a step that takes such an input, or none, issues nothing, R211. -/
theorem step_issuesNothing (hseq : s.seq = none) (hg : s.cfg.reqGate = .avail) (hq : ∀ e ∈ s.env.inputs, e.quiet)
    (h : step s = .next t) : IssuesNothing s t := by
  cases hin : s.env.inputs with
  | nil =>
    cases (step_noInput hseq hin).symm.trans h
    exact {}
  | cons e rest =>
    rw [step_input hseq hin] at h
    exact { takeInput_issuesNothing (s := s.afterInput rest) rfl hg (hq e (by simp [hin])) h with }

/-- So does a run of any length: a step keeps the parameters and takes at most one of the inputs away. -/
theorem run_issuesNothing (n : Nat) (hseq : s.seq = none) (hg : s.cfg.reqGate = .avail)
    (hq : ∀ e ∈ s.env.inputs, e.quiet) :
    ∃ u, Host.Core.run Sys2Proof.core n s = .next u ∧ IssuesNothing s u := by
  induction n generalizing s with
  | zero => exact ⟨s, rfl, {}⟩
  | succ n ih =>
    obtain ⟨t, ht, hseq', hcfg, hin⟩ := everyInputHasANextState s hseq
    have hq' : ∀ e ∈ t.env.inputs, e.quiet := fun e he => hq e (List.mem_of_mem_tail (hin ▸ he))
    obtain ⟨u, hu, hrest⟩ := ih hseq' (hcfg ▸ hg) hq'
    exact ⟨u, (run_succ ht).trans hu, (step_issuesNothing hseq hg hq ht).trans hrest⟩

/-- Settles O50: a run under AVAIL with quiet inputs issues nothing, step by step. -/
theorem noBytesNoRequestUnderAvail : Obligations.NoBytesNoRequestUnderAvail := by
  intro n s hseq hg hq
  obtain ⟨u, hu, hnothing⟩ := run_issuesNothing n hseq hg hq
  exact ⟨u, hu, hnothing.sent_eq, hnothing.sink_eq⟩

end Sys2Proof.Machine
end
